-- ==== Sys2Proof/Word.lean ====
section
/-! DEFINITION. The two word types of the Q1 block codec: bytes and 16-bit command words. -/

namespace Sys2Proof

/-- A byte: an unsigned 8-bit value (R10). -/
abbrev Byte := BitVec 8

/-- A 16-bit word: a command word (R70) or a value of the read port (R22). -/
abbrev Word := BitVec 16

end Sys2Proof
end

