-- ==== Sys2Proof/Syntax.lean ====
section
/-! DEFINITION. The sixteen commands of the opcode map (R72), one constructor per row of the opcode table. -/

namespace Sys2Proof

/-- A command. Every constructor carries `imm`, the `IMM` byte of its command word (R70): the operand byte of the four
operand commands, ignored by the others (R71) except that error entry records the whole word (R226, assumption
log 9). -/
inductive Instr where
  | nop (imm : Byte)
  | reset (imm : Byte)
  | txOpen (imm : Byte)
  | txPush (imm : Byte)
  | txEmitEnd (imm : Byte)
  | txClose (imm : Byte)
  | txSend (imm : Byte)
  | rxOpen (imm : Byte)
  | rxByte (imm : Byte)
  | rxEnd (imm : Byte)
  | rdByte (imm : Byte)
  | rdSkipBreak (imm : Byte)
  | pkPush (imm : Byte)
  | pkFlush (imm : Byte)
  | upPush (imm : Byte)
  | upFlush (imm : Byte)
deriving DecidableEq, Repr

/-- The `IMM` byte of a command (R70). -/
def Instr.imm : Instr → Byte
  | .nop imm => imm
  | .reset imm => imm
  | .txOpen imm => imm
  | .txPush imm => imm
  | .txEmitEnd imm => imm
  | .txClose imm => imm
  | .txSend imm => imm
  | .rxOpen imm => imm
  | .rxByte imm => imm
  | .rxEnd imm => imm
  | .rdByte imm => imm
  | .rdSkipBreak imm => imm
  | .pkPush imm => imm
  | .pkFlush imm => imm
  | .upPush imm => imm
  | .upFlush imm => imm

/-- Whether the command takes a byte operand (R71, R84). -/
def Instr.hasOperand : Instr → Bool
  | .txPush _ => true
  | .rxByte _ => true
  | .pkPush _ => true
  | .upPush _ => true
  | .nop _ => false
  | .reset _ => false
  | .txOpen _ => false
  | .txEmitEnd _ => false
  | .txClose _ => false
  | .txSend _ => false
  | .rxOpen _ => false
  | .rxEnd _ => false
  | .rdByte _ => false
  | .rdSkipBreak _ => false
  | .pkFlush _ => false
  | .upFlush _ => false

end Sys2Proof
end

