-- ==== Sys2Proof/Decode.lean ====
section
/-! DEFINITION. The command word (R70), the opcode map (R72) and the decoder (R74); after it the encoder. -/

namespace Sys2Proof

/-- `OPC`, bits 15:8 of a command word (R70). -/
def opcOf (w : Word) : Byte := w.extractLsb' 8 8

/-- `IMM`, bits 7:0 of a command word (R70, R71). -/
def immOf (w : Word) : Byte := w.extractLsb' 0 8

/-- Why a word is no command. -/
inductive DecodeError where
  /-- `OPC` is outside the table of R72 (R73). -/
  | reserved (opc : Byte)
deriving DecidableEq, Repr

/-- The decoder: it selects the command from `OPC` alone and is total (R74); every opcode outside R72 is reserved
(R73). -/
def decode (w : Word) : Except DecodeError Instr :=
  match opcOf w with
  | 0x00#8 => .ok (.nop (immOf w))
  | 0x01#8 => .ok (.reset (immOf w))
  | 0x10#8 => .ok (.txOpen (immOf w))
  | 0x11#8 => .ok (.txPush (immOf w))
  | 0x12#8 => .ok (.txEmitEnd (immOf w))
  | 0x13#8 => .ok (.txClose (immOf w))
  | 0x14#8 => .ok (.txSend (immOf w))
  | 0x20#8 => .ok (.rxOpen (immOf w))
  | 0x21#8 => .ok (.rxByte (immOf w))
  | 0x22#8 => .ok (.rxEnd (immOf w))
  | 0x23#8 => .ok (.rdByte (immOf w))
  | 0x24#8 => .ok (.rdSkipBreak (immOf w))
  | 0x30#8 => .ok (.pkPush (immOf w))
  | 0x31#8 => .ok (.pkFlush (immOf w))
  | 0x38#8 => .ok (.upPush (immOf w))
  | 0x39#8 => .ok (.upFlush (immOf w))
  | opc => .error (.reserved opc)

/-- The opcode of a command in the map of R72. -/
def opcodeOf : Instr → Byte
  | .nop _ => 0x00
  | .reset _ => 0x01
  | .txOpen _ => 0x10
  | .txPush _ => 0x11
  | .txEmitEnd _ => 0x12
  | .txClose _ => 0x13
  | .txSend _ => 0x14
  | .rxOpen _ => 0x20
  | .rxByte _ => 0x21
  | .rxEnd _ => 0x22
  | .rdByte _ => 0x23
  | .rdSkipBreak _ => 0x24
  | .pkPush _ => 0x30
  | .pkFlush _ => 0x31
  | .upPush _ => 0x38
  | .upFlush _ => 0x39

/-- The word of a command: `(OPC << 8) | IMM` (R70, R84). -/
def encode (i : Instr) : Word := opcodeOf i ++ i.imm

/-- The command decoded from an instruction whose bits, numbered as the opcode table numbers them, are `w`; bits from
`nbits` up are 0. The command port takes the word whole (R70), so no byte order enters. -/
def decodeTableWord (nbits w : Nat) : Option Instr :=
  (decode (BitVec.ofNat 16 (w % 2 ^ nbits))).toOption

end Sys2Proof
end

