-- ==== Sys2Proof/Config.lean ====
section
/-! DEFINITION. The implementation parameters of rule R7: the source's constants under their names, and the OPEN
parameters, whose values no source gives, under their constraints. -/

namespace Sys2Proof

/-- `P_SENTINEL`: the end-of-block sentinel (R7). -/
def Config.sentinel : Byte := 0xFE

/-- `P_SOX`: the first byte of every message (R7). -/
def Config.sox : Byte := 0xF0

/-- `P_EOX`: the terminator of every message (R7). -/
def Config.eox : Byte := 0xF7

/-- `P_GROUP`: raw bytes per packed group (R7). -/
def Config.group : Nat := 7

/-- `P_BLOCK_LIMIT`: the block byte count that triggers a break (R7, C2). -/
def Config.blockLimit : Nat := 210

/-- `P_MAX_BLOCKS`: most blocks in one document, the FCB included (R7). -/
def Config.maxBlocks : Nat := 127

/-- `P_RAW_CAP`: most raw bytes in one document (R7, D13). -/
def Config.rawCap : Nat := 26670

/-- `P_FCB_LEN`: length of the FCB record (R7, C1). -/
abbrev Config.fcbLen : Nat := 40

/-- `P_PDB_HDR_LEN`: length of a PDB header (R7). -/
def Config.pdbHdrLen : Nat := 4

/-- `P_FINAL_SENTINEL`: whether TX_CLOSE appends a sentinel (R7, decided by D12). -/
def Config.finalSentinel : Bool := true

/-- A set of values for the OPEN parameters of R7, as it is handed to a model: any bytes. The values a machine is built
with are a `BuiltParams`. -/
structure Params where
  /-- `P_MFR_ID`, header byte 1. -/
  mfrId : Byte
  /-- `P_FUNC_ID`, header byte 2. -/
  funcId : Byte
  /-- `P_TYPE_ID`, header byte 3. -/
  typeId : Byte
  /-- `P_PDB_MARKER`, PDB header byte 0. -/
  pdbMarker : Byte
  /-- `P_PDB_TAG`, PDB header byte 1. -/
  pdbTag : Byte
  /-- `P_FCB_TEMPLATE`, the 40 bytes of the FCB (R130). -/
  fcbTemplate : Vector Byte Config.fcbLen
deriving DecidableEq, Repr

/-- `P_MFR_ID`, `P_FUNC_ID` and `P_TYPE_ID` each lie in 0x00..0x7F (R7). -/
def Params.idsWellFormed (p : Params) : Bool :=
  p.mfrId < 0x80#8 && p.funcId < 0x80#8 && p.typeId < 0x80#8

/-- `P_PDB_MARKER` and `P_PDB_TAG` are any bytes but 0xFE (R7). -/
def Params.headerWellFormed (p : Params) : Bool :=
  p.pdbMarker != Config.sentinel && p.pdbTag != Config.sentinel

/-- `P_FCB_TEMPLATE` holds no byte 0xFE (R7, R131). -/
def Params.templateWellFormed (p : Params) : Bool :=
  p.fcbTemplate.toList.all (· != Config.sentinel)

/-- A parameter set that meets every constraint of R7. -/
def Params.wellFormed (p : Params) : Bool :=
  p.idsWellFormed && p.headerWellFormed && p.templateWellFormed

/-- The parameter store of R50, R66: the parameters a Q1BC is built with, which meet the constraints of R7 (R252). There is no
machine with a set that breaks one (93_implementation_defined.md, section 2). The field defaults only show Lean that some set
meets them; no rule and no statement uses them. -/
structure BuiltParams extends Params where
  mfrId := 0x00
  funcId := 0x00
  typeId := 0x00
  pdbMarker := 0x00
  pdbTag := 0x00
  fcbTemplate := Vector.replicate Config.fcbLen 0x00
  /-- The constraints of R7. -/
  constrained : toParams.wellFormed = true := by decide
deriving DecidableEq, Repr, Inhabited

/-- Why no machine is constructed from a parameter set (R252): the first constraint of R7 that it breaks. -/
inductive ParamRefusal where
  /-- An ID byte of 0x80 or more. Raised by `BuiltParams.build`. Safe: there is no machine. -/
  | idByte
  /-- A marker or tag equal to 0xFE. Raised by `BuiltParams.build`. Safe. -/
  | headerByte
  /-- A template that holds a byte 0xFE (R131). Raised by `BuiltParams.build`. Safe. -/
  | templateByte
deriving DecidableEq, Repr

/-- Model construction takes the OPEN parameters as an argument and refuses a set that breaks a constraint (R7, R252). -/
def BuiltParams.build (p : Params) : Except ParamRefusal BuiltParams :=
  if h : p.wellFormed = true then .ok { toParams := p, constrained := h }
  else if p.idsWellFormed = false then .error .idByte
  else if p.headerWellFormed = false then .error .headerByte
  else .error .templateByte

/-- The parameters the hardware was built with: any set that meets the constraints of R7. No source gives it (N1 to N3, D29), so
it has no body: nothing proves a value of it (assumption log 2). -/
opaque Config.params : BuiltParams

end Sys2Proof
end

