-- ==== Sys2Proof/Machine/State.lean ====
section
/-! DEFINITION. The architectural state of the Q1BC (10_state.md, 20_memory.md), the reasons a step can stop, and the
state after reset (R44). -/

namespace Sys2Proof.Machine

/-- `STATE`, the control state (R23). The values 6 and 8..15 never occur. -/
inductive Ctl where
  /-- 0, no session. -/
  | idle
  /-- 1, encode session: the raw document is being built. -/
  | txBuild
  /-- 2, encode session: document closed, messages being sent. -/
  | txClosed
  /-- 3, encode session: every block sent. -/
  | txSent
  /-- 4, decode session: messages being received. -/
  | rxActive
  /-- 5, decode session: document complete, raw read port open. -/
  | rxDone
  /-- 7, a session command raised an error. -/
  | err
deriving DecidableEq, Repr

/-- `RXSUB`, the position of the RX message parser inside a message (R25). The values 6 and 7 never occur. -/
inductive RxSub where
  /-- 0, expects 0xF0. -/
  | waitF0
  /-- 1, expects `P_MFR_ID`. -/
  | hdrMfr
  /-- 2, expects `P_FUNC_ID`. -/
  | hdrFunc
  /-- 3, expects `P_TYPE_ID`. -/
  | hdrType
  /-- 4, expects the block index. -/
  | hdrIdx
  /-- 5, expects a payload byte, the checksum or 0xF7. -/
  | body
deriving DecidableEq, Repr

/-- The five error kinds (R220). -/
inductive ErrKind where
  /-- 1, causes in R221. -/
  | format
  /-- 2, cause in R222. -/
  | checksum
  /-- 3, cause in R223. -/
  | sequence
  /-- 4, causes in R224. -/
  | capacity
  /-- 5, causes in R225. -/
  | command
deriving DecidableEq, Repr

/-- The faults of the model. The spec's own errors are not faults: they are error entries, after which the machine goes
on (R226). No run from reset raises a fault (assumption log 5 and 6). -/
inductive Fault where
  /-- An access to `DOC` at an address outside 0..26,669, which does not exist (R51). Raised by `memRead` and `memWrite`,
  in states no run reaches. Safe: the machine stops where the spec defines no access. -/
  | docAddress (addr : Nat)
  /-- A read of a `DOC` byte that holds no value. Raised by `memRead`, in states no run reaches: R52 reads only below
  `RAWLEN`, and every such byte was written. Safe: no value is invented. -/
  | docUnwritten (addr : Nat)
  /-- An access to `BLKSTART[127]`, which does not exist (R35). Raised by `readBlkStart` and `writeBlkStart`, in states no
  run reaches. Safe. -/
  | blkStartIndex (index : Nat)
deriving DecidableEq, Repr

/-- The refusals of the model. -/
inductive Refusal where
  /-- An instruction that has no meaning yet, rejected by name in exec's arm. No arm raises it. Safe. -/
  | notModelled (mnemonic : String)
deriving DecidableEq, Repr

/-- The state of the Q1BC: the registers of R22 to R39, the storage spaces of R50, and the host's command port. -/
structure State where
  /-- `STATE` (R23). -/
  ctl : Ctl
  /-- `RXSUB` (R25). -/
  rxSub : RxSub
  /-- `ERRCODE` (R26): the kind of the recorded error, `none` for code 0. -/
  errCode : Option ErrKind
  /-- `RD_VALID` (R27). -/
  rdValid : Bool
  /-- `BLKCNT` (R28). -/
  blkCnt : BitVec 7
  /-- `RAWLEN` (R29). -/
  rawLen : BitVec 15
  /-- `CURLEN` (R30). -/
  curLen : BitVec 15
  /-- `SENDIDX` (R31). -/
  sendIdx : BitVec 7
  /-- `RDPTR` (R32). -/
  rdPtr : BitVec 15
  /-- `RDDATA` (R33). -/
  rdData : Byte
  /-- `ERRCMD` (R34). -/
  errCmd : Word
  /-- `BLKSTART[0..126]` (R35). -/
  blkStart : Vector (BitVec 15) 127
  /-- `MSGSTART` (R37). -/
  msgStart : BitVec 15
  /-- `RXSUM` (R37). -/
  rxSum : BitVec 7
  /-- `RXHOLD` (R37). -/
  rxHold : Byte
  /-- `HOLD_V` (R37). -/
  holdV : Bool
  /-- `RXMASK` (R37). -/
  rxMask : Byte
  /-- `RXIDX` (R37). -/
  rxIdx : BitVec 3
  /-- `PKGRP[0..6]` (R38). -/
  pkGrp : Vector Byte 7
  /-- `PKCNT` (R38), 0..6 between steps. -/
  pkCnt : Fin 7
  /-- `PKMASK` (R38). -/
  pkMask : BitVec 7
  /-- `PKFEP` (R38). -/
  pkFep : Bool
  /-- `PKSTOP` (R38). -/
  pkStop : Bool
  /-- `UPMASK` (R39). -/
  upMask : Byte
  /-- `UPIDX` (R39). -/
  upIdx : BitVec 3
  /-- The document RAM `DOC` (R51): the bytes that hold a value, by rising address. -/
  doc : List Host.Cell
  /-- The output stream OUT (R56): every byte emitted since launch, the first one first. -/
  out : List Byte
  /-- The read-only parameter store (R50, R66), within the constraints of R7 (R252). -/
  params : BuiltParams
  /-- The command port (R70): words the host has issued and the engine has not taken, the next one first. The model's own
  field (assumption log 1). -/
  cmdPort : List Word
deriving DecidableEq, Repr

/-- The state after power-on reset (R44, R250) of a Q1BC built with the given parameters (R7, R252), with OUT empty (R253). R44 leaves `BLKSTART`, `PKGRP` and `DOC`
unspecified: DESIGN CHOICE zeros and no listed byte (assumption log 3, 4, 5). The host has
issued no word (assumption log 1). -/
def State.powerOn (p : BuiltParams) : State where
  ctl := .idle
  rxSub := .waitF0
  errCode := none
  rdValid := false
  blkCnt := 0
  rawLen := 0
  curLen := 0
  sendIdx := 0
  rdPtr := 0
  rdData := 0x00
  errCmd := 0x0000
  blkStart := Vector.replicate 127 0
  msgStart := 0
  rxSum := 0
  rxHold := 0x00
  holdV := false
  rxMask := 0x00
  rxIdx := 0
  pkGrp := Vector.replicate 7 0
  pkCnt := 0
  pkMask := 0x00
  pkFep := false
  pkStop := false
  upMask := 0x00
  upIdx := 0
  doc := []
  out := []
  params := p
  cmdPort := []

/-- The state after power-on reset of the Q1BC at hand, whose parameters have no known value (assumption log 2). -/
def State.reset : State := State.powerOn Config.params

end Sys2Proof.Machine
end

