-- ==== Sys2Proof/Machine/Ops.lean ====
section
/-! DEFINITION. The shared operations: the document RAM and `Append` (20_memory.md), `BLKSTART` (R35), OUT (R56),
`ClearSession` (R43), error entry (R226) with the legality of commands (R212 to R215), and the command port (R70). -/

namespace Sys2Proof.Machine

/-! ## The document RAM as a finite map -/

/-- The byte a list of cells holds at an address; `none` where the byte holds no value (assumption log 5). -/
def Memory.read : List Host.Cell → Nat → Option Byte
  | [], _ => none
  | (k, v) :: m, a => if k = a then some v else Memory.read m a

/-- `DOC[a] <- v` (R52), keeping the cells by strictly rising address. -/
def Memory.write : List Host.Cell → Nat → Byte → List Host.Cell
  | [], a, v => [(a, v)]
  | (k, w) :: m, a, v =>
    if a < k then (a, v) :: (k, w) :: m
    else if a = k then (a, v) :: m
    else (k, w) :: Memory.write m a v

/-- Every address of the cells is at least `lo` and they rise strictly. -/
def Memory.risingFrom : Nat → List Host.Cell → Bool
  | _, [] => true
  | lo, (k, _) :: m => decide (lo ≤ k) && Memory.risingFrom (k + 1) m

/-- The canonical form of the document RAM: strictly rising addresses, all of which exist (R51). An unlisted byte holds
no value, so no entry equals what an unlisted address reads as. -/
def Memory.wf (m : List Host.Cell) : Bool :=
  Memory.risingFrom 0 m && m.all (fun c => decide (c.1 < Config.rawCap))

/-! ## What ends a command early -/

/-- Why a command's body ended before its last write. -/
inductive Stop where
  /-- `raise K(info)`: the command takes the error entry (R226). -/
  | raise (k : ErrKind)
  /-- The model stops: an access that no rule makes. -/
  | fault (f : Fault)
deriving DecidableEq, Repr

/-- What the body of a command gives: the state after all its writes, or why it ended early. -/
abbrev Attempt := Except Stop State

/-- The outcome of a command. -/
abbrev Result := Host.Outcome State Fault Refusal

/-! ## Accesses -/

/-- `MemRead(a, 1)` (R52). -/
def memRead (a : Nat) (s : State) : Except Stop Byte :=
  if a < Config.rawCap then
    match Memory.read s.doc a with
    | some b => .ok b
    | none => .error (.fault (.docUnwritten a))
  else .error (.fault (.docAddress a))

/-- `[ MemRead(a, 1) for a in lo .. lo + n - 1 ]` (R141). -/
def memReadList : Nat → Nat → State → Except Stop (List Byte)
  | _, 0, _ => .ok []
  | lo, n + 1, s => do
    let b ← memRead lo s
    let bs ← memReadList (lo + 1) n s
    return b :: bs

/-- `MemWrite(a, 1, v)` (R52). -/
def memWrite (a : Nat) (v : Byte) (s : State) : Attempt :=
  if a < Config.rawCap then .ok { s with doc := Memory.write s.doc a v }
  else .error (.fault (.docAddress a))

/-- `Append(b)`, the only writer of `DOC` (R53). -/
def append (b : Byte) (s : State) : Attempt := do
  let t ← memWrite s.rawLen.toNat b s
  return { t with rawLen := t.rawLen + 1, curLen := t.curLen + 1 }

/-- `Append` of each byte of a list, in order. -/
def appendAll : List Byte → State → Attempt
  | [], s => .ok s
  | b :: bs, s => do
    let t ← append b s
    appendAll bs t

/-- `Emit(xs)` (R56). -/
def emit (xs : List Byte) (s : State) : State := { s with out := s.out ++ xs }

/-- `BLKSTART[i]` (R35). -/
def readBlkStart (i : Nat) (s : State) : Except Stop (BitVec 15) :=
  if h : i < 127 then .ok s.blkStart[i] else .error (.fault (.blkStartIndex i))

/-- `BLKSTART[i] <- v` (R35). -/
def writeBlkStart (i : Nat) (v : BitVec 15) (s : State) : Attempt :=
  if i < 127 then .ok { s with blkStart := s.blkStart.setIfInBounds i v }
  else .error (.fault (.blkStartIndex i))

/-! ## Sessions, reset, errors -/

/-- `ClearSession()` (R43). -/
def clearSession (s : State) : State :=
  { s with
    rxSub := .waitF0, errCode := none, errCmd := 0x0000, rdValid := false
    rawLen := 0, blkCnt := 0, curLen := 0, sendIdx := 0, rdPtr := 0, rdData := 0x00
    msgStart := 0, rxSum := 0, rxHold := 0x00, holdV := false, rxMask := 0x00, rxIdx := 0 }

/-- The whole block in its power-on state (R211, R44, R250). OUT keeps its bytes (R56), the parameters are fixed in the
hardware (R66), and the command port is the host's. -/
def resetBlock (s : State) : State :=
  { State.powerOn s.params with out := s.out, cmdPort := s.cmdPort }

/-- `ErrorEntry(K, w)` (R226): the one way an error is taken. -/
def errorEntry (k : ErrKind) (w : Word) (s : State) : State :=
  let t := { s with errCode := some k, errCmd := w, ctl := .err }
  if s.ctl = .rxActive ∨ s.ctl = .rxDone then
    { t with rawLen := 0, blkCnt := 0, curLen := 0, rdPtr := 0 }
  else t

/-- The end of a command whose word is `w`, issued in state `s`: an error takes the error entry from `s` itself, so that
no write of the command is kept (R226, R229). -/
def finish (w : Word) (s : State) : Attempt → Result
  | .ok t => .next t
  | .error (.raise k) => .next (errorEntry k w s)
  | .error (.fault f) => .fault f

/-- Steps 3 to 5 of the order of checks (R215): ignored in `ERR` (R214), CommandError where the session command is not
legal (R212), else the command's body. -/
def runSession (legal : Ctl) (w : Word) (s : State) (body : State → Attempt) : Result :=
  if s.ctl = .err then .next s
  else if s.ctl = legal then finish w s (body s)
  else .next (errorEntry .command w s)

/-- A word whose opcode is reserved: CommandError, or ignored in `ERR` (R213, R214). -/
def execReserved (w : Word) (s : State) : Result :=
  if s.ctl = .err then .next s else .next (errorEntry .command w s)

/-! ## The command port -/

/-- The next command word the host has issued, and the state with that word taken (R21: each word executes once, on
receipt). -/
def takeWord (s : State) : Option (Word × State) :=
  match s.cmdPort with
  | [] => none
  | w :: ws => some (w, { s with cmdPort := ws })

/-- The host issues a word to be taken next (R70). -/
def issueWord (w : Word) (s : State) : State := { s with cmdPort := w :: s.cmdPort }

end Sys2Proof.Machine
end

