-- ==== Sys2Proof/Machine/Control.lean ====
section
/-! DEFINITION. NOP and RESET (43_control.md). -/

namespace Sys2Proof.Machine

/-- NOP (R210): nothing changes, whatever `IMM` is. -/
def execNop (_imm : Byte) (s : State) : Result := .next s

/-- RESET (R211): the whole block returns to its power-on state. -/
def execReset (_imm : Byte) (s : State) : Result := .next (resetBlock s)

end Sys2Proof.Machine
end

