-- ==== Sys2Proof/Machine/Operands.lean ====
section
/-! DEFINITION. Operand forms and the byte fields the commands use: the `IMM` operand (R71), the bits of a packed group
(R58, R75), `UnpackStep` (R112), the SysEx data-byte class (R82) and the extent of a block (R36). -/

namespace Sys2Proof.Machine

/-- The operand of TX_PUSH, RX_BYTE, PK_PUSH and UP_PUSH: `IMM` unchanged, `b = zext_8(word[7:0])` (R71). -/
def operandByte (imm : Byte) : Byte := imm

/-- Bit 7 of a byte, which the packer moves into the mask byte (R75). -/
def bit7 (b : Byte) : Bool := b.getLsbD 7

/-- `b & 0x7F` (R75). -/
def low7 (b : Byte) : Byte := b &&& 0x7F

/-- A byte of 0x80 or more, never a data byte (R82). -/
def isHigh (b : Byte) : Bool := decide (0x80 ≤ b.toNat)

/-- Data byte `d` of a packed group with its bit 7 restored from mask bit `j`:
`(d & 0x7F) | (((mask >> j) & 1) << 7)` (R104). -/
def restoreBit7 (mask : Byte) (j : Nat) (d : Byte) : Byte :=
  low7 d ||| (((mask >>> j) &&& 1) <<< 7)

/-- `UnpackStep(b)` on the pair `(mask, idx)` (R112): the new pair, and the raw byte if there is one. -/
def unpackStep (b mask : Byte) (idx : BitVec 3) : Byte × BitVec 3 × Option Byte :=
  if idx = 0 then (b, 1, none)
  else (mask, if idx = 7 then 0 else idx + 1, some (restoreBit7 mask (idx.toNat - 1) b))

/-- `BlkEnd(i)` (R36). -/
def blkEnd (i : Nat) (s : State) : Except Stop (BitVec 15) :=
  if i + 1 < s.blkCnt.toNat then readBlkStart (i + 1) s else .ok s.rawLen

/-- The raw content of block `i`, `DOC[BLKSTART[i] .. BlkEnd(i))` (R36). -/
def blockBytes (i : Nat) (s : State) : Except Stop (List Byte) := do
  let lo ← readBlkStart i s
  let hi ← blkEnd i s
  memReadList lo.toNat (hi.toNat - lo.toNat) s

end Sys2Proof.Machine
end

