-- ==== Sys2Proof/Machine/Packing.lean ====
section
/-! DEFINITION. The pure functions of 40_packer.md: `PackLen`, `pack7to8`, `unpack8to7`, their size formulas, the checksum,
and the SysEx message of a block (R77). -/

namespace Sys2Proof.Machine

/-- `PackLen(raw)` (R100): a left-to-right pair of sentinels is literal, an unpaired sentinel is packed and ends the scan
(D6, D7, D8). -/
def packLen : List Byte → Nat
  | [] => 0
  | [_] => 1
  | b :: c :: rest =>
    if b = Config.sentinel then
      if c = Config.sentinel then packLen rest + 2 else 1
    else packLen (c :: rest) + 1

/-- The mask byte's bits from `j` up for the raw bytes of a group from its byte `j` on: bit `j` holds bit 7 of raw byte
`j` (R58, R75). -/
def maskFrom : Nat → List Byte → Byte
  | _, [] => 0x00
  | j, b :: bs => (if bit7 b then 1#8 <<< j else 0x00) ||| maskFrom (j + 1) bs

/-- The packed group of up to 7 raw bytes (R75). -/
def packGroup (run : List Byte) : List Byte := maskFrom 0 run :: run.map low7

/-- At most `n` packed groups, each of up to 7 raw bytes. -/
def packGroups : Nat → List Byte → List Byte
  | 0, _ => []
  | _ + 1, [] => []
  | n + 1, b :: bs =>
    packGroup ((b :: bs).take Config.group) ++ packGroups n ((b :: bs).drop Config.group)

/-- `pack7to8(raw)` (R101): the first `PackLen(raw)` bytes in groups of up to 7. -/
def pack7to8 (raw : List Byte) : List Byte := packGroups (packLen raw) (raw.take (packLen raw))

/-- `packedSize(n)` (R102). -/
def packedSize (n : Nat) : Nat := 8 * (n / 7) + (if n % 7 = 0 then 0 else n % 7 + 1)

/-- The data bytes of a packed group from its data byte `j` on, each with bit 7 restored (R104). -/
def restoreFrom (mask : Byte) : Nat → List Byte → List Byte
  | _, [] => []
  | j, d :: ds => restoreBit7 mask j d :: restoreFrom mask (j + 1) ds

/-- The raw bytes of one packed group; a lone mask byte yields none (R104). -/
def unpackGroup : List Byte → List Byte
  | [] => []
  | mask :: ds => restoreFrom mask 0 ds

/-- At most `n` packed groups of up to 8 bytes, unpacked. -/
def unpackGroups : Nat → List Byte → List Byte
  | 0, _ => []
  | _ + 1, [] => []
  | n + 1, b :: bs =>
    unpackGroup ((b :: bs).take (Config.group + 1)) ++ unpackGroups n ((b :: bs).drop (Config.group + 1))

/-- `unpack8to7(p)` (R104). -/
def unpack8to7 (p : List Byte) : List Byte := unpackGroups p.length p

/-- `unpackedSize(m)` (R105). -/
def unpackedSize (m : Nat) : Nat := 7 * (m / 8) + (if m % 8 = 0 then 0 else m % 8 - 1)

/-- `sum(p)` (R11). -/
def byteSum (p : List Byte) : Nat := (p.map BitVec.toNat).sum

/-- `Cks(p)` (R107): the sum mod 128. -/
def cks (p : List Byte) : Byte := BitVec.ofNat 8 (byteSum p % 128)

/-- The SysEx message of block `i` with the given raw bytes (R77, R141). -/
def sysexMessage (p : BuiltParams) (i : BitVec 7) (raw : List Byte) : List Byte :=
  [Config.sox, p.mfrId, p.funcId, p.typeId, i.setWidth 8] ++ pack7to8 raw
    ++ [cks (pack7to8 raw), Config.eox]

end Sys2Proof.Machine
end

