-- ==== Sys2Proof/Machine/Framer.lean ====
section
/-! DEFINITION. The encode commands TX_OPEN, TX_PUSH, TX_EMIT_END, TX_CLOSE and TX_SEND (41_framer_tx.md). -/

namespace Sys2Proof.Machine

/-- `PadNeeded(L)` (R134). -/
def padNeeded (len : Nat) : Nat := if len % 2 = 1 ∧ len ≠ 7 then 1 else 0

/-- The 4 bytes that open every PDB (R79). -/
def pdbHeader (p : BuiltParams) : List Byte := [p.pdbMarker, p.pdbTag, 0x00, 0x00]

/-- The 40 bytes of the FCB, in index order (R59, R130). -/
def fcbBytes (p : BuiltParams) : List Byte := List.ofFn fun j : Fin Config.fcbLen => p.fcbTemplate[j]

/-- The writes of `Break()` once its checks have passed (R136): the sentinels close the block and the PDB header opens the
next one. -/
def breakWrites (pad : Nat) (s : State) : Attempt := do
  let t ← appendAll (List.replicate (1 + pad) Config.sentinel) s
  let u ← writeBlkStart t.blkCnt.toNat t.rawLen t
  appendAll (pdbHeader u.params) { u with blkCnt := u.blkCnt + 1, curLen := 0 }

/-- The non-final break `Break()` (R136), its two capacity checks first (R135). -/
def breakBlock (s : State) : Attempt :=
  let pad := padNeeded (s.curLen.toNat + 1)
  if s.blkCnt.toNat = Config.maxBlocks then .error (.raise .capacity)
  else if s.rawLen.toNat + 1 + pad + Config.pdbHdrLen > Config.rawCap then .error (.raise .capacity)
  else breakWrites pad s

/-- The body of TX_OPEN (R137). -/
def txOpen (s : State) : Attempt := do
  let t ← writeBlkStart 0 0 { clearSession s with blkCnt := 1 }
  let u ← appendAll (fcbBytes t.params) t
  let v ← breakBlock u
  return { v with ctl := .txBuild }

/-- The body of TX_PUSH (R138). -/
def txPush (b : Byte) (s : State) : Attempt :=
  if s.rawLen.toNat = Config.rawCap then .error (.raise .capacity) else append b s

/-- The body of TX_EMIT_END (R139, R132). -/
def txEmitEnd (s : State) : Attempt :=
  if s.curLen.toNat ≥ Config.blockLimit then breakBlock s else .ok s

/-- The final sentinel of TX_CLOSE (R140, R133). -/
def closeSentinel (s : State) : Attempt :=
  if Config.finalSentinel then
    if s.rawLen.toNat = Config.rawCap then .error (.raise .capacity) else append Config.sentinel s
  else .ok s

/-- The body of TX_CLOSE (R140). -/
def txClose (s : State) : Attempt := do
  let t ← closeSentinel s
  return { t with sendIdx := 0, ctl := .txClosed }

/-- The body of TX_SEND (R141). -/
def txSend (s : State) : Attempt := do
  let raw ← blockBytes s.sendIdx.toNat s
  let t := emit (sysexMessage s.params s.sendIdx raw) s
  return { t with
    sendIdx := s.sendIdx + 1
    ctl := if s.sendIdx + 1 = s.blkCnt then .txSent else s.ctl }

/-- TX_OPEN (R137), a global command. -/
def execTxOpen (imm : Byte) (s : State) : Result := finish (encode (.txOpen imm)) s (txOpen s)

/-- TX_PUSH (R138). -/
def execTxPush (imm : Byte) (s : State) : Result :=
  runSession .txBuild (encode (.txPush imm)) s (txPush (operandByte imm))

/-- TX_EMIT_END (R139). -/
def execTxEmitEnd (imm : Byte) (s : State) : Result :=
  runSession .txBuild (encode (.txEmitEnd imm)) s txEmitEnd

/-- TX_CLOSE (R140). -/
def execTxClose (imm : Byte) (s : State) : Result :=
  runSession .txBuild (encode (.txClose imm)) s txClose

/-- TX_SEND (R141). -/
def execTxSend (imm : Byte) (s : State) : Result :=
  runSession .txClosed (encode (.txSend imm)) s txSend

end Sys2Proof.Machine
end

