-- ==== Sys2Proof/Machine/Receiver.lean ====
section
/-! DEFINITION. The decode commands RX_OPEN, RX_BYTE, RX_END and the read commands RD_BYTE and RD_SKIP_BREAK
(42_envelope_rx.md). -/

namespace Sys2Proof.Machine

/-- RX_BYTE at `WAIT_F0` (R172). -/
def rxWaitF0 (b : Byte) (s : State) : Attempt :=
  if b ≠ Config.sox then .error (.raise .format) else .ok { s with rxSub := .hdrMfr }

/-- RX_BYTE at an ID byte of the header (R173): the byte must equal its parameter, and the parser moves on. -/
def rxHeaderId (expect : Byte) (after : RxSub) (b : Byte) (s : State) : Attempt :=
  if b ≠ expect then .error (.raise .format) else .ok { s with rxSub := after }

/-- RX_BYTE at the block index (R174). -/
def rxHeaderIdx (b : Byte) (s : State) : Attempt :=
  if isHigh b then .error (.raise .format)
  else if b.toNat ≠ s.blkCnt.toNat then .error (.raise .sequence)
  else if s.blkCnt.toNat = Config.maxBlocks then .error (.raise .capacity)
  else .ok { s with
    msgStart := s.rawLen
    curLen := 0, rxSum := 0, rxHold := 0x00, holdV := false, rxMask := 0x00, rxIdx := 0
    rxSub := .body }

/-- The held byte `h` is payload: it is summed and unpacked (R175). -/
def rxAccept (h : Byte) (s : State) : Attempt :=
  if s.rxIdx ≠ 0 ∧ s.rawLen.toNat = Config.rawCap then .error (.raise .capacity)
  else
    let (mask, idx, raw) := unpackStep h s.rxMask s.rxIdx
    let t := { s with
      rxSum := BitVec.ofNat 7 ((s.rxSum.toNat + h.toNat) % 128), rxMask := mask, rxIdx := idx }
    match raw with
    | none => .ok t
    | some r => append r t

/-- RX_BYTE in the body with a data byte (R175): the byte held before it is accepted, and it is held itself. -/
def rxBodyData (b : Byte) (s : State) : Attempt := do
  let t ← if s.holdV then rxAccept s.rxHold s else .ok s
  return { t with rxHold := b, holdV := true }

/-- RX_BYTE in the body with 0xF7 (R176): the held byte is the checksum. -/
def rxBodyEnd (s : State) : Attempt :=
  if s.holdV = false then .error (.raise .format)
  else if s.rxSum.setWidth 8 ≠ s.rxHold then .error (.raise .checksum)
  else do
    let t ← writeBlkStart s.blkCnt.toNat s.msgStart s
    return { t with blkCnt := t.blkCnt + 1, holdV := false, rxHold := 0x00, rxSub := .waitF0 }

/-- RX_BYTE in the body (R171, R175 to R177). -/
def rxBody (b : Byte) (s : State) : Attempt :=
  if isHigh b = false then rxBodyData b s
  else if b = Config.eox then rxBodyEnd s
  else .error (.raise .format)

/-- The body of RX_BYTE: dispatch on `RXSUB` (R171). -/
def rxByte (b : Byte) (s : State) : Attempt :=
  match s.rxSub with
  | .waitF0 => rxWaitF0 b s
  | .hdrMfr => rxHeaderId s.params.mfrId .hdrFunc b s
  | .hdrFunc => rxHeaderId s.params.funcId .hdrType b s
  | .hdrType => rxHeaderId s.params.typeId .hdrIdx b s
  | .hdrIdx => rxHeaderIdx b s
  | .body => rxBody b s

/-- The body of RX_END (R178). -/
def rxEnd (s : State) : Attempt :=
  if s.rxSub ≠ .waitF0 then .error (.raise .format)
  else if s.blkCnt = 0 then .error (.raise .format)
  else .ok { s with rdPtr := 0, ctl := .rxDone }

/-- The body of RD_BYTE (R179). -/
def rdByte (s : State) : Attempt :=
  if s.rdPtr.toNat < s.rawLen.toNat then do
    let b ← memRead s.rdPtr.toNat s
    return { s with rdData := b, rdValid := true, rdPtr := s.rdPtr + 1 }
  else .ok { s with rdData := 0x00, rdValid := false }

/-- How far RD_SKIP_BREAK moves for a second sentinel: 1 if the next byte is 0xFE (R180). -/
def skipSentinel (s : State) : Except Stop Nat :=
  if s.rdPtr.toNat < s.rawLen.toNat then do
    let b ← memRead s.rdPtr.toNat s
    return if b = Config.sentinel then 1 else 0
  else .ok 0

/-- The body of RD_SKIP_BREAK (R180). -/
def rdSkipBreak (s : State) : Attempt := do
  let n ← skipSentinel s
  return { s with rdPtr := BitVec.ofNat 15 (min (s.rdPtr.toNat + n + Config.pdbHdrLen) s.rawLen.toNat) }

/-- RX_OPEN (R170), a global command. -/
def execRxOpen (_imm : Byte) (s : State) : Result := .next { clearSession s with ctl := .rxActive }

/-- RX_BYTE (R171). -/
def execRxByte (imm : Byte) (s : State) : Result :=
  runSession .rxActive (encode (.rxByte imm)) s (rxByte (operandByte imm))

/-- RX_END (R178). -/
def execRxEnd (imm : Byte) (s : State) : Result :=
  runSession .rxActive (encode (.rxEnd imm)) s rxEnd

/-- RD_BYTE (R179). -/
def execRdByte (imm : Byte) (s : State) : Result :=
  runSession .rxDone (encode (.rdByte imm)) s rdByte

/-- RD_SKIP_BREAK (R180). -/
def execRdSkipBreak (imm : Byte) (s : State) : Result :=
  runSession .rxDone (encode (.rdSkipBreak imm)) s rdSkipBreak

end Sys2Proof.Machine
end

