-- ==== Sys2Proof/Machine/Standalone.lean ====
section
/-! DEFINITION. The standalone streaming packer and unpacker: PK_PUSH, PK_FLUSH, UP_PUSH, UP_FLUSH (40_packer.md, sections 4
and 5). All four are global commands and raise nothing. -/

namespace Sys2Proof.Machine

/-- `PkEmit()` (R108) on an open group of `cnt` bytes: emit it, if any, and start the next. -/
def pkEmit (cnt : Nat) (s : State) : State :=
  let t := if cnt > 0 then emit (s.pkMask.setWidth 8 :: (s.pkGrp.toList.take cnt).map low7) s else s
  { t with pkCnt := 0, pkMask := 0x00 }

/-- `PkAdd(b)` (R108): a group of 7 bytes is emitted at once. -/
def pkAdd (b : Byte) (s : State) : State :=
  let t := { s with
    pkGrp := s.pkGrp.set s.pkCnt.val b s.pkCnt.isLt
    pkMask := if bit7 b then s.pkMask ||| (1#7 <<< s.pkCnt.val) else s.pkMask }
  if h : s.pkCnt.val + 1 < 7 then { t with pkCnt := ⟨s.pkCnt.val + 1, h⟩ } else pkEmit 7 t

/-- One raw byte into the standalone packer (R109). DEDUCED: a byte that confirms a terminator emits the open short group, 2 to 7
bytes, as R109's pseudocode has it, although R261 counts only 0 or 8 bytes for PK_PUSH. No ruling of the spec names the point; the
model applies to it order rule 1 of 90_conflicts.md, an algorithm wins over a summary that restates it (assumption log 14). -/
def pkPush (b : Byte) (s : State) : State :=
  if s.pkStop then s
  else if s.pkFep then
    if b = Config.sentinel then { pkAdd b s with pkFep := false }
    else { pkEmit s.pkCnt.val s with pkStop := true, pkFep := false }
  else if b = Config.sentinel then { pkAdd b s with pkFep := true }
  else pkAdd b s

/-- The end of the raw array (R110). -/
def pkFlush (s : State) : State :=
  { pkEmit s.pkCnt.val s with pkFep := false, pkStop := false }

/-- One packed byte into the standalone unpacker (R113). -/
def upPush (b : Byte) (s : State) : State :=
  let (mask, idx, raw) := unpackStep b s.upMask s.upIdx
  emit raw.toList { s with upMask := mask, upIdx := idx }

/-- The end of the packed array (R114). -/
def upFlush (s : State) : State := { s with upIdx := 0, upMask := 0x00 }

/-- PK_PUSH (R109). -/
def execPkPush (imm : Byte) (s : State) : Result := .next (pkPush (operandByte imm) s)

/-- PK_FLUSH (R110). -/
def execPkFlush (_imm : Byte) (s : State) : Result := .next (pkFlush s)

/-- UP_PUSH (R113). -/
def execUpPush (imm : Byte) (s : State) : Result := .next (upPush (operandByte imm) s)

/-- UP_FLUSH (R114). -/
def execUpFlush (_imm : Byte) (s : State) : Result := .next (upFlush s)

end Sys2Proof.Machine
end

