-- ==== Sys2Proof/Machine/Dispatch.lean ====
section
/-! DEFINITION. One arm per command: the meaning it calls. -/

namespace Sys2Proof.Machine

/-- The outcome of a command in a state. -/
def exec (i : Instr) (s : State) : Host.Outcome State Fault Refusal :=
  match i with
  | .nop imm => Sys2Proof.Machine.execNop imm s
  | .reset imm => Sys2Proof.Machine.execReset imm s
  | .txOpen imm => Sys2Proof.Machine.execTxOpen imm s
  | .txPush imm => Sys2Proof.Machine.execTxPush imm s
  | .txEmitEnd imm => Sys2Proof.Machine.execTxEmitEnd imm s
  | .txClose imm => Sys2Proof.Machine.execTxClose imm s
  | .txSend imm => Sys2Proof.Machine.execTxSend imm s
  | .rxOpen imm => Sys2Proof.Machine.execRxOpen imm s
  | .rxByte imm => Sys2Proof.Machine.execRxByte imm s
  | .rxEnd imm => Sys2Proof.Machine.execRxEnd imm s
  | .rdByte imm => Sys2Proof.Machine.execRdByte imm s
  | .rdSkipBreak imm => Sys2Proof.Machine.execRdSkipBreak imm s
  | .pkPush imm => Sys2Proof.Machine.execPkPush imm s
  | .pkFlush imm => Sys2Proof.Machine.execPkFlush imm s
  | .upPush imm => Sys2Proof.Machine.execUpPush imm s
  | .upFlush imm => Sys2Proof.Machine.execUpFlush imm s

end Sys2Proof.Machine
end

