-- ==== Sys2Proof/Machine/Step.lean ====
section
/-! DEFINITION. One step of the engine: it takes the next command word the host has issued, decodes it and executes it
(R8, R21, R215). -/

namespace Sys2Proof.Machine

/-- One step (R8). With no word issued the engine is idle and nothing changes (R238, assumption log 1). A word that
decodes executes; a reserved word raises CommandError or is ignored in `ERR` (R213, R214). -/
def step (s : State) : Host.Outcome State Fault Refusal :=
  match takeWord s with
  | none => .next s
  | some (w, t) =>
    match decode w with
    | .ok i => exec i t
    | .error (.reserved _) => execReserved w t

/-- `s` with the word of the given bits issued, so that the very next step takes exactly it; bits from `nbits` up are 0.
It stands for the host's issuing a word (assumption log 1). -/
def State.withFetchWord (s : State) (nbits w : Nat) : State :=
  issueWord (BitVec.ofNat 16 (w % 2 ^ nbits)) s

end Sys2Proof.Machine
end

