-- ==== Sys2Proof/Machine/Flags.lean ====
section
/-! DEFINITION. The codes of the control fields, `STATUS` (R24) and the read port (R22). The flags are the STATUS fields
(R41); there are no arithmetic condition codes. -/

namespace Sys2Proof.Machine

/-- The code of `STATE` (R23). -/
def Ctl.code : Ctl → BitVec 4
  | .idle => 0
  | .txBuild => 1
  | .txClosed => 2
  | .txSent => 3
  | .rxActive => 4
  | .rxDone => 5
  | .err => 7

/-- The code of `RXSUB` (R25). -/
def RxSub.code : RxSub → BitVec 3
  | .waitF0 => 0
  | .hdrMfr => 1
  | .hdrFunc => 2
  | .hdrType => 3
  | .hdrIdx => 4
  | .body => 5

/-- The code of an error kind (R220). -/
def ErrKind.code : ErrKind → BitVec 3
  | .format => 1
  | .checksum => 2
  | .sequence => 3
  | .capacity => 4
  | .command => 5

/-- The value of `ERRCODE`: 0 when no error is recorded (R26, R220). -/
def errCodeBits : Option ErrKind → BitVec 3
  | none => 0
  | some k => k.code

/-- A one-bit field as a word. -/
def flagWord (b : Bool) : Word := if b then 1 else 0

/-- `STATUS`, read address 0x0 (R24). -/
def statusWord (s : State) : Word :=
  s.ctl.code.setWidth 16 ||| (s.rxSub.code.setWidth 16 <<< 4) ||| ((errCodeBits s.errCode).setWidth 16 <<< 8)
    ||| (flagWord s.rdValid <<< 11) ||| (flagWord s.pkFep <<< 12) ||| (flagWord s.pkStop <<< 13)

/-- The read port (R22): the value at a read address. A read has no side effect, so it is a function of the state;
0x8 to 0xF are reserved and read as 0x0000. -/
def readPort (s : State) (addr : BitVec 4) : Word :=
  match addr with
  | 0x0#4 => statusWord s
  | 0x1#4 => s.blkCnt.setWidth 16
  | 0x2#4 => s.rawLen.setWidth 16
  | 0x3#4 => s.curLen.setWidth 16
  | 0x4#4 => s.sendIdx.setWidth 16
  | 0x5#4 => s.rdPtr.setWidth 16
  | 0x6#4 => s.rdData.setWidth 16
  | 0x7#4 => s.errCmd
  | _ => 0x0000

end Sys2Proof.Machine
end

