-- ==== Sys2Proof/WellFormed.lean ====
section
/-! DEFINITION. The check on terms: the assembled form of a command (R84). Every command word of a listed opcode executes
(R71, R74), so no check stands between decoding and execution. The constraints on the OPEN parameters (R7) are in Config. -/

namespace Sys2Proof

/-- The form an assembler writes: a command without operand has `IMM` = 0x00 (R71, R84). -/
def Instr.isAssembled (i : Instr) : Bool :=
  i.hasOperand || i.imm == 0x00#8

end Sys2Proof
end

