-- ==== Sys2Proof/Safety.lean ====
section
/-! DEFINITION. The terms claims are made in: the legality table (R212), when a command raises an error, runs of commands,
the values after reset (R44), and the invariants of R42. -/

namespace Sys2Proof.Machine

/-- The one `STATE` a session command is legal in; `none` for a global command (R212). -/
def legalIn : Instr → Option Ctl
  | .nop _ => none
  | .reset _ => none
  | .txOpen _ => none
  | .txPush _ => some .txBuild
  | .txEmitEnd _ => some .txBuild
  | .txClose _ => some .txBuild
  | .txSend _ => some .txClosed
  | .rxOpen _ => none
  | .rxByte _ => some .rxActive
  | .rxEnd _ => some .rxActive
  | .rdByte _ => some .rxDone
  | .rdSkipBreak _ => some .rxDone
  | .pkPush _ => none
  | .pkFlush _ => none
  | .upPush _ => none
  | .upFlush _ => none

/-- The reserved opcodes as R73 lists them. -/
def reservedOpcode (n : Nat) : Bool :=
  (0x02 ≤ n && n ≤ 0x0F) || (0x15 ≤ n && n ≤ 0x1F) || (0x25 ≤ n && n ≤ 0x2F) || (0x32 ≤ n && n ≤ 0x37)
    || (0x3A ≤ n && n ≤ 0xFF)

/-- The command raises an error of kind `k`: it takes the error entry from a state that holds none (R226). -/
def Raises (k : ErrKind) (i : Instr) (s : State) : Prop :=
  s.ctl ≠ .err ∧ exec i s = .next (errorEntry k (encode i) s)

/-- The commands of a list, one after the other, up to the first fault or refusal. -/
def execAll : List Instr → State → Host.Outcome State Fault Refusal
  | [], s => .next s
  | i :: is, s =>
    match exec i s with
    | .next t => execAll is t
    | .fault f => .fault f
    | .refused r => .refused r

/-- No unpaired 0xFE stands before the last byte, sentinels being paired from the left (R100, R102). -/
def noEarlySentinel : List Byte → Bool
  | [] => true
  | [_] => true
  | b :: c :: rest =>
    if b = 0xFE then c == 0xFE && noEarlySentinel rest else noEarlySentinel (c :: rest)

/-- The RX_BYTE commands that carry one whole SysEx message: the header with block index `n`, the payload, its checksum, and
0xF7 (R77). -/
def messageCommands (p : BuiltParams) (n : Byte) (payload : List Byte) : List Instr :=
  ([0xF0, p.mfrId, p.funcId, p.typeId, n] ++ payload ++ [cks payload, 0xF7]).map Instr.rxByte

/-- The values the reset table gives (R44). `BLKSTART`, `PKGRP` and `DOC` are unspecified there and left out here; OUT is not
reset. -/
structure PowerOnValues (s : State) : Prop where
  ctl : s.ctl = .idle
  rxSub : s.rxSub = .waitF0
  errCode : s.errCode = none
  rdValid : s.rdValid = false
  blkCnt : s.blkCnt = 0
  rawLen : s.rawLen = 0
  curLen : s.curLen = 0
  sendIdx : s.sendIdx = 0
  rdPtr : s.rdPtr = 0
  rdData : s.rdData = 0x00
  errCmd : s.errCmd = 0x0000
  msgStart : s.msgStart = 0
  rxSum : s.rxSum = 0
  rxIdx : s.rxIdx = 0
  rxHold : s.rxHold = 0x00
  rxMask : s.rxMask = 0x00
  holdV : s.holdV = false
  pkCnt : s.pkCnt = 0
  pkFep : s.pkFep = false
  pkStop : s.pkStop = false
  pkMask : s.pkMask = 0x00
  upMask : s.upMask = 0x00
  upIdx : s.upIdx = 0

/-- A state of an encode session (R23). -/
def Ctl.isEncode (c : Ctl) : Bool := c = .txBuild || c = .txClosed || c = .txSent

/-- A state of a decode session (R23). -/
def Ctl.isDecode (c : Ctl) : Bool := c = .rxActive || c = .rxDone

/-- `BLKSTART[i]` as a number, 0 past the file's end. -/
def blkStartAt (s : State) (i : Nat) : Nat := (s.blkStart.toList.getD i 0).toNat

/-- The invariants of every reachable state: those R42 lists, and what they rest on. Bounds that a field's type already
holds (`BLKCNT` ≤ 127, `PKCNT` ≤ 6, `RXIDX` and `UPIDX` ≤ 7, `RXSUM` ≤ 127) need no line. -/
structure Invariants (s : State) : Prop where
  /-- The document RAM is in canonical form (R51). -/
  docWf : Memory.wf s.doc = true
  /-- Every byte below `RAWLEN` holds a value (R52, R53). -/
  docFilled : ∀ a, a < s.rawLen.toNat → (Memory.read s.doc a).isSome = true
  /-- `RAWLEN ≤ P_RAW_CAP` (R42). -/
  rawLenCap : s.rawLen.toNat ≤ Config.rawCap
  /-- `SENDIDX ≤ BLKCNT` (R42). -/
  sendIdxLe : s.sendIdx.toNat ≤ s.blkCnt.toNat
  /-- `RDPTR ≤ RAWLEN` (R42). -/
  rdPtrLe : s.rdPtr.toNat ≤ s.rawLen.toNat
  /-- `BLKSTART[0] = 0` once a block exists (R42). -/
  blkStartZero : 1 ≤ s.blkCnt.toNat → blkStartAt s 0 = 0
  /-- `BLKSTART` is non-decreasing in a decode session, strictly increasing elsewhere (R42). -/
  blkStartOrder : ∀ i, i + 1 < s.blkCnt.toNat →
    if s.ctl.isDecode then blkStartAt s i ≤ blkStartAt s (i + 1) else blkStartAt s i < blkStartAt s (i + 1)
  /-- Every block starts within the document (R35). -/
  blkStartLe : ∀ i, i < s.blkCnt.toNat → blkStartAt s i ≤ s.rawLen.toNat
  /-- `PKSTOP = 1` implies `PKCNT = 0` and `PKFEP = 0` (R42). -/
  pkStopEmpty : s.pkStop = true → s.pkCnt = 0 ∧ s.pkFep = false
  /-- The open group's mask has no bit at or above `PKCNT` (R75, R108). -/
  pkMaskBits : s.pkMask.toNat < 2 ^ s.pkCnt.val
  /-- `ERRCODE` is non-zero exactly when `STATE = ERR` (R26). -/
  errCodeIff : s.errCode.isSome = true ↔ s.ctl = .err
  /-- `ERRCMD` is 0x0000 when `ERRCODE = 0` (R34). -/
  errCmdZero : s.errCode = none → s.errCmd = 0x0000
  /-- No document exists in `IDLE` (R250). -/
  idleEmpty : s.ctl = .idle → s.blkCnt = 0 ∧ s.rawLen = 0
  /-- An encode session has at least two blocks (R28), and `CURLEN` counts the bytes of the last one (R30). -/
  encodeBlocks : s.ctl.isEncode = true →
    2 ≤ s.blkCnt.toNat ∧ blkStartAt s (s.blkCnt.toNat - 1) + s.curLen.toNat = s.rawLen.toNat
  /-- In an encode session block 0 is 42 bytes long, and every closed PDB held 210 bytes or more before its break sentinel
  (R142). -/
  encodeSizes : s.ctl.isEncode = true →
    blkStartAt s 1 = 42 ∧ ∀ i, 1 ≤ i → i + 1 < s.blkCnt.toNat → blkStartAt s i + 211 ≤ blkStartAt s (i + 1)
  /-- `SENDIDX` while messages are being sent, and after the last (R31). -/
  sendPosition : (s.ctl = .txClosed → s.sendIdx.toNat < s.blkCnt.toNat) ∧ (s.ctl = .txSent → s.sendIdx = s.blkCnt)
  /-- `SENDIDX` stays 0 in a decode session (R43). -/
  decodeSendIdx : s.ctl.isDecode = true → s.sendIdx = 0
  /-- Between messages: no completed message, no raw byte (R182). -/
  betweenMessages : s.ctl = .rxActive → s.rxSub ≠ .body → s.blkCnt = 0 → s.rawLen = 0
  /-- Inside a message body: its first byte's offset, and `CURLEN` counts what it has unpacked (R30, R37, R174). -/
  inBody : s.ctl = .rxActive → s.rxSub = .body →
    s.blkCnt.toNat < Config.maxBlocks ∧ s.msgStart.toNat + s.curLen.toNat = s.rawLen.toNat ∧
    (s.blkCnt = 0 → s.msgStart = 0) ∧ ∀ i, i < s.blkCnt.toNat → blkStartAt s i ≤ s.msgStart.toNat
  /-- An open read port has a document and no open message (R178). -/
  readPortOpen : s.ctl = .rxDone → s.rxSub = .waitF0 ∧ 1 ≤ s.blkCnt.toNat

end Sys2Proof.Machine
end

