-- ==== Sys2Proof/Certificates/Slice0/Obligations.lean ====
section
/-! DEFINITION. The statements for the provers. Each docstring names the rules of spec/ it formalises. "The frame" is stated by
giving the whole next state: a field that a record update does not name is unchanged. `cmdPort`, the words the host has issued
and the engine has not taken, is the model's own field (assumption log 1): it says which word is issued. -/

open Sys2Proof Sys2Proof.Machine

/-! ## Encoding and the command port -/

/-- Encoding and decoding are inverse to each other: every command decodes from its word with every operand value (R70, R71),
and a word that decodes is the word of the command it decodes to. -/
def Obligations.DecodeEncodeAgree : Prop :=
  (∀ i : Instr, decode (encode i) = .ok i) ∧ (∀ (w : Word) (i : Instr), decode w = .ok i → encode i = w)

/-- R74: decoding is total and selects the command from `OPC` alone: every word is a command of its opcode, carrying its
`IMM`, or is reserved, and two words of one opcode are both the one or both the other. -/
def Obligations.DecoderReadsOpcodeAlone : Prop :=
  (∀ w : Word, (∃ i, decode w = .ok i ∧ opcodeOf i = opcOf w ∧ i.imm = immOf w) ∨
    decode w = .error (.reserved (opcOf w))) ∧
  (∀ v w : Word, opcOf v = opcOf w → (decode v).map opcodeOf = (decode w).map opcodeOf)

/-- Words written out from the opcode map of R72, one of each family, and a reserved one. -/
def Obligations.OpcodeMapWords : Prop :=
  decode 0b0000000011111111#16 = .ok (.nop 0xFF) ∧
  decode 0b0000000100000000#16 = .ok (.reset 0x00) ∧
  decode 0b0001000110010000#16 = .ok (.txPush 0x90) ∧
  decode 0b0001010000000000#16 = .ok (.txSend 0x00) ∧
  decode 0b0010000111110111#16 = .ok (.rxByte 0xF7) ∧
  decode 0b0010010000000000#16 = .ok (.rdSkipBreak 0x00) ∧
  decode 0b0011000000111100#16 = .ok (.pkPush 0x3C) ∧
  decode 0b0011100001010101#16 = .ok (.upPush 0x55) ∧
  decode 0b0101000000000000#16 = .error (.reserved 0x50)

/-- R73 and R213: exactly the 240 listed opcodes are reserved; a word of one raises CommandError whatever its `IMM`, and is
ignored in `ERR`. Which word is issued is said by the model's `cmdPort` (assumption log 1). -/
def Obligations.ReservedWordsRaiseCommandError : Prop :=
  (∀ w : Word, (∃ opc, decode w = .error (.reserved opc)) ↔ reservedOpcode (opcOf w).toNat = true) ∧
  ((List.range 256).filter reservedOpcode).length = 240 ∧
  (∀ (s : State) (w : Word) (ws : List Word), s.cmdPort = w :: ws → reservedOpcode (opcOf w).toNat = true →
    step s = .next (if s.ctl = .err then { s with cmdPort := ws }
      else errorEntry .command w { s with cmdPort := ws }))

/-- A step executes the command the next issued word decodes to, on the state with that word taken; with no word issued it
changes nothing (the command port is the model's, assumption log 1). The word `withFetchWord` issues is the next one. -/
def Obligations.StepRunsDecodedCommand : Prop :=
  (∀ (s : State) (w : Word) (ws : List Word) (i : Instr), s.cmdPort = w :: ws → decode w = .ok i →
    step s = exec i { s with cmdPort := ws }) ∧
  (∀ s : State, s.cmdPort = [] → step s = .next s) ∧
  (∀ (s : State) (n : Nat), (s.withFetchWord 16 n).cmdPort = BitVec.ofNat 16 n :: s.cmdPort)

/-! ## Control, reset, the read port -/

/-- R210: NOP changes nothing, whatever its `IMM`. -/
def Obligations.NopKeepsEverything : Prop :=
  ∀ (imm : Byte) (s : State), exec (.nop imm) s = .next s

/-- R211: RESET gives every state of the reset table its value there, so that every read address reads 0x0000, and retracts no
byte of OUT. The parameters are fixed in the hardware and stay. -/
def Obligations.ResetReturnsPowerOnState : Prop :=
  ∀ (imm : Byte) (s : State), ∃ t, exec (.reset imm) s = .next t ∧ PowerOnValues t ∧
    (∀ a, readPort t a = 0x0000) ∧ t.out = s.out ∧ t.params = s.params

/-- The power-on state: the values of the reset table, every read address 0x0000, OUT empty (sections "Reset and boot" and
"Session clear and reset values"). -/
def Obligations.PowerOnStateReadsZero : Prop :=
  PowerOnValues State.reset ∧ (∀ a, readPort State.reset a = 0x0000) ∧ State.reset.out = []

/-- The fields of `STATUS` stand at the bits of R24, with the codes of R23, R25 and R220, and the reserved bits read 0. -/
def Obligations.StatusWordFields : Prop :=
  ∀ s : State,
    ((readPort s 0x0).extractLsb' 0 4).toNat =
      (match s.ctl with
       | .idle => 0 | .txBuild => 1 | .txClosed => 2 | .txSent => 3 | .rxActive => 4 | .rxDone => 5 | .err => 7) ∧
    ((readPort s 0x0).extractLsb' 4 3).toNat =
      (match s.rxSub with
       | .waitF0 => 0 | .hdrMfr => 1 | .hdrFunc => 2 | .hdrType => 3 | .hdrIdx => 4 | .body => 5) ∧
    ((readPort s 0x0).extractLsb' 8 3).toNat =
      (match s.errCode with
       | none => 0 | some .format => 1 | some .checksum => 2 | some .sequence => 3 | some .capacity => 4
       | some .command => 5) ∧
    (readPort s 0x0).getLsbD 11 = s.rdValid ∧ (readPort s 0x0).getLsbD 12 = s.pkFep ∧
    (readPort s 0x0).getLsbD 13 = s.pkStop ∧
    (readPort s 0x0).getLsbD 7 = false ∧ (readPort s 0x0).getLsbD 14 = false ∧ (readPort s 0x0).getLsbD 15 = false

/-- R22: read address 0x0 gives `STATUS`, 0x1 to 0x7 give their registers, unused high bits 0; 0x8 to 0xF read 0x0000. -/
def Obligations.ReadPortMap : Prop :=
  ∀ s : State,
    readPort s 0x0 = statusWord s ∧ (readPort s 0x0).toNat < 2 ^ 14 ∧
    (readPort s 0x1).toNat = s.blkCnt.toNat ∧ (readPort s 0x2).toNat = s.rawLen.toNat ∧
    (readPort s 0x3).toNat = s.curLen.toNat ∧ (readPort s 0x4).toNat = s.sendIdx.toNat ∧
    (readPort s 0x5).toNat = s.rdPtr.toNat ∧ (readPort s 0x6).toNat = s.rdData.toNat ∧
    readPort s 0x7 = s.errCmd ∧ ∀ a : BitVec 4, 8 ≤ a.toNat → readPort s a = 0x0000

/-! ## Legality, errors, transitions of STATE -/

/-- R212: a session command raises CommandError in every `STATE` but its own and `ERR`, and is ignored in `ERR`; a global
command completes in every `STATE` and raises nothing. -/
def Obligations.SessionCommandsLegalInOneState : Prop :=
  ∀ (i : Instr) (s : State),
    (∀ c, legalIn i = some c →
      (s.ctl ≠ c → s.ctl ≠ .err → exec i s = .next (errorEntry .command (encode i) s)) ∧
      (s.ctl = .err → exec i s = .next s)) ∧
    (legalIn i = none → ∃ t, exec i s = .next t ∧ (s.ctl ≠ .err → t.ctl ≠ .err))

/-- R214: in `ERR` session commands and reserved words change nothing; NOP and the standalone commands do what they do in every
other `STATE` and leave `ERR` in place with its record; the OPENs start a session and clear the error, and RESET clears
everything. Which word is issued is said by the model's `cmdPort` (assumption log 1). -/
def Obligations.ErrIgnoresNonGlobalWords : Prop :=
  ∀ s : State, s.ctl = .err →
    (∀ i, legalIn i ≠ none → exec i s = .next s) ∧
    (∀ (w : Word) (ws : List Word), s.cmdPort = w :: ws → reservedOpcode (opcOf w).toNat = true →
      step s = .next { s with cmdPort := ws }) ∧
    (∀ (i : Instr) (b : Byte), i ∈ [.nop b, .pkPush b, .pkFlush b, .upPush b, .upFlush b] →
      ∃ t, exec i s = .next t ∧ t.ctl = .err ∧ t.errCode = s.errCode ∧ t.errCmd = s.errCmd ∧
        ∀ c, exec i { s with ctl := c } = .next { t with ctl := c }) ∧
    (∀ b : Byte, ∃ t, exec (.txOpen b) s = .next t ∧ t.ctl = .txBuild ∧ t.errCode = none ∧ t.errCmd = 0x0000) ∧
    (∀ b : Byte, ∃ t, exec (.rxOpen b) s = .next t ∧ t.ctl = .rxActive ∧ t.errCode = none ∧ t.errCmd = 0x0000) ∧
    (∀ b : Byte, ∃ t, exec (.reset b) s = .next t ∧ PowerOnValues t)

/-- R230 and R231: from `ERR` only TX_OPEN, RX_OPEN and RESET lead out, into a new encode session, a new decode session or the
reset state, each clearing `ERRCODE` and `ERRCMD`; after every other word the first error stands. Which word is
issued is said by the model's `cmdPort` (assumption log 1). -/
def Obligations.FirstErrorKeptUntilRecovery : Prop :=
  ∀ s t : State, s.ctl = .err → step s = .next t →
    (t.ctl ≠ .err ↔ ∃ (w : Word) (ws : List Word) (b : Byte), s.cmdPort = w :: ws ∧
      (decode w = .ok (.txOpen b) ∨ decode w = .ok (.rxOpen b) ∨ decode w = .ok (.reset b))) ∧
    (t.ctl ≠ .err → t.errCode = none ∧ t.errCmd = 0x0000 ∧
      (t.ctl = .txBuild ∨ t.ctl = .rxActive ∨ PowerOnValues t)) ∧
    (t.ctl = .err → t.errCode = s.errCode ∧ t.errCmd = s.errCmd)

/-- Every change of `STATE` is one of the transitions R216 lists. -/
def Obligations.StateTransitionsAreListed : Prop :=
  ∀ (i : Instr) (s t : State), exec i s = .next t → t.ctl ≠ s.ctl →
    ∃ b, (i = .txOpen b ∧ t.ctl = .txBuild) ∨ (i = .txClose b ∧ t.ctl = .txClosed) ∨
      (i = .txSend b ∧ t.ctl = .txSent) ∨ (i = .rxOpen b ∧ t.ctl = .rxActive) ∨ (i = .rxEnd b ∧ t.ctl = .rxDone) ∨
      (i = .reset b ∧ t.ctl = .idle) ∨ (t.ctl = .err ∧ ∃ k, t = errorEntry k (encode i) s)

/-- A command without operand executes identically for every `IMM` (section "The host command word"), but for the word that
error entry records in `ERRCMD` (assumption log 9). -/
def Obligations.ImmIgnoredWithoutOperand : Prop :=
  ∀ (i j : Instr) (s t u : State), i.hasOperand = false → opcodeOf i = opcodeOf j →
    exec i s = .next t → exec j s = .next u → { t with errCmd := 0x0000 } = { u with errCmd := 0x0000 }

/-- R226 and R229: error entry writes `ERRCODE`, `ERRCMD` and `STATE`, discards the document in a decode session, and writes
nothing else; a command that ends in `ERR` keeps none of its own writes. -/
def Obligations.ErrorEntryIsPrecise : Prop :=
  (∀ (k : ErrKind) (w : Word) (s : State), errorEntry k w s =
    if s.ctl = .rxActive ∨ s.ctl = .rxDone then
      { s with errCode := some k, errCmd := w, rawLen := 0, blkCnt := 0, curLen := 0, rdPtr := 0, ctl := .err }
    else { s with errCode := some k, errCmd := w, ctl := .err }) ∧
  (∀ (i : Instr) (s t : State), s.ctl ≠ .err → exec i s = .next t → t.ctl = .err →
    ∃ k, t = errorEntry k (encode i) s)

/-- R221: FormatError is raised in these cases and only in these. -/
def Obligations.FormatErrorCauses : Prop :=
  ∀ (i : Instr) (s : State), Raises .format i s ↔ ∃ b,
    (i = .rxByte b ∧ s.ctl = .rxActive ∧
      ((s.rxSub = .waitF0 ∧ b ≠ 0xF0) ∨ (s.rxSub = .hdrMfr ∧ b ≠ s.params.mfrId) ∨
       (s.rxSub = .hdrFunc ∧ b ≠ s.params.funcId) ∨ (s.rxSub = .hdrType ∧ b ≠ s.params.typeId) ∨
       (s.rxSub = .hdrIdx ∧ 0x80 ≤ b.toNat) ∨ (s.rxSub = .body ∧ b = 0xF7 ∧ s.holdV = false) ∨
       (s.rxSub = .body ∧ 0x80 ≤ b.toNat ∧ b ≠ 0xF7))) ∨
    (i = .rxEnd b ∧ s.ctl = .rxActive ∧ (s.rxSub ≠ .waitF0 ∨ s.blkCnt = 0))

/-- ChecksumError is raised where a message's 0xF7 finds a held checksum other than the running sum, and only there; and a
change of one payload byte to another data byte changes the sum mod 128 (section "Error kinds and causes"). -/
def Obligations.ChecksumErrorCause : Prop :=
  (∀ (i : Instr) (s : State), Raises .checksum i s ↔
    i = .rxByte 0xF7 ∧ s.ctl = .rxActive ∧ s.rxSub = .body ∧ s.holdV = true ∧ s.rxHold.toNat ≠ s.rxSum.toNat) ∧
  (∀ (pre post : List Byte) (x y : Byte), x.toNat < 0x80 → y.toNat < 0x80 → x ≠ y →
    cks (pre ++ x :: post) ≠ cks (pre ++ y :: post))

/-- R223: SequenceError is raised where a block index byte below 0x80 differs from `BLKCNT`, and only there. -/
def Obligations.SequenceErrorCause : Prop :=
  ∀ (i : Instr) (s : State), Raises .sequence i s ↔ ∃ b,
    i = .rxByte b ∧ s.ctl = .rxActive ∧ s.rxSub = .hdrIdx ∧ b.toNat < 0x80 ∧ b.toNat ≠ s.blkCnt.toNat

/-- R224: CapacityError is raised where a raw byte would be written at 26,670 or beyond or a 128th block would be opened, and
only there. -/
def Obligations.CapacityErrorCauses : Prop :=
  ∀ (i : Instr) (s : State), Raises .capacity i s ↔ ∃ b,
    (i = .txPush b ∧ s.ctl = .txBuild ∧ s.rawLen.toNat = 26670) ∨
    (i = .txEmitEnd b ∧ s.ctl = .txBuild ∧ 210 ≤ s.curLen.toNat ∧
      (s.blkCnt.toNat = 127 ∨
       s.rawLen.toNat + 1 + (if (s.curLen.toNat + 1) % 2 = 1 ∧ s.curLen.toNat + 1 ≠ 7 then 1 else 0) + 4 > 26670)) ∨
    (i = .txClose b ∧ s.ctl = .txBuild ∧ s.rawLen.toNat = 26670) ∨
    (i = .rxByte b ∧ s.ctl = .rxActive ∧
      ((s.rxSub = .hdrIdx ∧ b.toNat = 127 ∧ s.blkCnt.toNat = 127) ∨
       (s.rxSub = .body ∧ b.toNat < 0x80 ∧ s.holdV = true ∧ s.rxIdx ≠ 0 ∧ s.rawLen.toNat = 26670)))

/-- R225: CommandError is raised for a session command in a `STATE` other than its own and `ERR`, and for a reserved word
outside `ERR`, and only for these. Which word is issued is said by the model's `cmdPort` (assumption log 1). -/
def Obligations.CommandErrorCauses : Prop :=
  (∀ (i : Instr) (s : State), Raises .command i s ↔
    ∃ c, legalIn i = some c ∧ s.ctl ≠ c ∧ s.ctl ≠ .err) ∧
  (∀ (s : State) (w : Word) (ws : List Word) (e : DecodeError), s.cmdPort = w :: ws → decode w = .error e →
    s.ctl ≠ .err → step s = .next (errorEntry .command w { s with cmdPort := ws }))

/-! ## Packer and unpacker -/

/-- R100: the packer's scan. A byte other than 0xFE is packed; a left-to-right pair of 0xFE is packed; an unpaired 0xFE is packed
and ends the scan. All of an array without an early sentinel is packed. -/
def Obligations.PackLenScansPairs : Prop :=
  packLen [] = 0 ∧ packLen [0xFE] = 1 ∧
  (∀ (b : Byte) (raw : List Byte), b ≠ 0xFE → packLen (b :: raw) = packLen raw + 1) ∧
  (∀ raw : List Byte, packLen (0xFE :: 0xFE :: raw) = packLen raw + 2) ∧
  (∀ (c : Byte) (raw : List Byte), c ≠ 0xFE → packLen (0xFE :: c :: raw) = 1) ∧
  (∀ raw : List Byte, packLen raw ≤ raw.length) ∧
  (∀ raw : List Byte, noEarlySentinel raw = true ↔ packLen raw = raw.length)

/-- R102: the packed length, in general and for an array without an early sentinel, with the source's two figures. -/
def Obligations.PackedLength : Prop :=
  (∀ raw : List Byte, (pack7to8 raw).length = packedSize (packLen raw)) ∧
  (∀ raw : List Byte, noEarlySentinel raw = true → (pack7to8 raw).length = packedSize raw.length) ∧
  (∀ n : Nat, packedSize n = 8 * (n / 7) + (if n % 7 = 0 then 0 else n % 7 + 1)) ∧
  packedSize 212 = 243 ∧ packedSize 42 = 48

/-- R103: every packed byte is below 0x80. -/
def Obligations.PackedBytesSevenBit : Prop :=
  ∀ (raw : List Byte) (b : Byte), b ∈ pack7to8 raw → b.toNat < 0x80

/-- R58 and R101: in packed group `g`, data byte `j` is raw byte `7g + j` with bit 7 clear, bit `j` of the mask byte is that raw
byte's bit 7, and the mask's other bits are 0; only the first `PackLen` raw bytes are packed. -/
def Obligations.PackedByteAt : Prop :=
  (∀ raw : List Byte, packLen raw ≤ raw.length ∧ (pack7to8 raw).length = packedSize (packLen raw)) ∧
  (∀ (raw : List Byte) (g j : Nat), j < 7 → 7 * g + j < packLen raw →
    (pack7to8 raw)[8 * g + 1 + j]? = some (raw.getD (7 * g + j) 0 &&& 0x7F)) ∧
  (∀ (raw : List Byte) (g : Nat), 7 * g < packLen raw → ∃ mask, (pack7to8 raw)[8 * g]? = some mask ∧
    ∀ j, mask.getLsbD j =
      (decide (j < 7 ∧ 7 * g + j < packLen raw) && (raw.getD (7 * g + j) 0).getLsbD 7))

/-- R104 and R105: raw byte `7g + j` of the unpacked array is data byte `j` of group `g` with its bit 7 restored from mask bit
`j`, and the lengths are those of `unpackedSize`. -/
def Obligations.UnpackedByteAt : Prop :=
  (∀ p : List Byte, (unpack8to7 p).length = unpackedSize p.length) ∧
  (∀ m : Nat, unpackedSize m = 7 * (m / 8) + (if m % 8 = 0 then 0 else m % 8 - 1)) ∧
  (∀ n : Nat, unpackedSize (packedSize n) = n) ∧
  (∀ (p : List Byte) (g j : Nat), j < 7 → 8 * g + 1 + j < p.length →
    (unpack8to7 p)[7 * g + j]? =
      some ((p.getD (8 * g + 1 + j) 0 &&& 0x7F) ||| (((p.getD (8 * g) 0 >>> j) &&& 1) <<< 7)))

/-- R106: unpacking a packed array gives back what was packed of it, all of it where no early sentinel stands in it. -/
def Obligations.PackUnpackRoundTrip : Prop :=
  (∀ raw : List Byte, unpack8to7 (pack7to8 raw) = raw.take (packLen raw)) ∧
  (∀ raw : List Byte, noEarlySentinel raw = true → unpack8to7 (pack7to8 raw) = raw)

/-- R107: the checksum is the plain sum of the payload bytes mod 128. -/
def Obligations.ChecksumOfPayload : Prop :=
  (∀ p : List Byte, (cks p).toNat = (p.map BitVec.toNat).sum % 128) ∧ cks [] = 0x00 ∧
  cks [0x03, 0x7E, 0x7E, 0x01] = 0x00

/-- R108 and R109: PK_PUSH in every `STATE`. A stopped packer drops the byte; a byte that confirms a terminator closes the open
group and stops the packer; every other byte joins the group, which is emitted when it holds 7. The bytes emitted are those of
R109's pseudocode; R261 counts others for the closing of a short group, and is not followed there (assumption log 14). -/
def Obligations.PkPushEffect : Prop :=
  ∀ (b : Byte) (s : State),
    (s.pkStop = true → exec (.pkPush b) s = .next s) ∧
    (s.pkStop = false → s.pkFep = true → b ≠ 0xFE →
      exec (.pkPush b) s = .next { s with
        out := s.out ++ (if s.pkCnt = 0 then []
          else s.pkMask.setWidth 8 :: (s.pkGrp.toList.take s.pkCnt.val).map (· &&& 0x7F))
        pkCnt := 0, pkMask := 0, pkStop := true, pkFep := false }) ∧
    (s.pkStop = false → (s.pkFep = true → b = 0xFE) → ∀ h : s.pkCnt.val + 1 < 7,
      exec (.pkPush b) s = .next { s with
        pkGrp := s.pkGrp.setIfInBounds s.pkCnt.val b
        pkMask := if b.getLsbD 7 then s.pkMask ||| (1#7 <<< s.pkCnt.val) else s.pkMask
        pkCnt := ⟨s.pkCnt.val + 1, h⟩
        pkFep := !s.pkFep && (b == 0xFE) }) ∧
    (s.pkStop = false → (s.pkFep = true → b = 0xFE) → s.pkCnt.val = 6 →
      exec (.pkPush b) s = .next { s with
        out := s.out ++ (if b.getLsbD 7 then s.pkMask ||| 0x40 else s.pkMask).setWidth 8 ::
          ((s.pkGrp.toList.take 6 ++ [b]).map (· &&& 0x7F))
        pkGrp := s.pkGrp.setIfInBounds 6 b
        pkCnt := 0, pkMask := 0
        pkFep := !s.pkFep && (b == 0xFE) })

/-- R110: PK_FLUSH in every `STATE` emits the open group, if any, and re-arms the packer. -/
def Obligations.PkFlushEffect : Prop :=
  ∀ (imm : Byte) (s : State), exec (.pkFlush imm) s = .next { s with
    out := s.out ++ (if s.pkCnt = 0 then []
      else s.pkMask.setWidth 8 :: (s.pkGrp.toList.take s.pkCnt.val).map (· &&& 0x7F))
    pkCnt := 0, pkMask := 0, pkFep := false, pkStop := false }

/-- R112 and R113: UP_PUSH in every `STATE` takes a mask byte, or emits one raw byte. -/
def Obligations.UpPushEffect : Prop :=
  ∀ (b : Byte) (s : State), exec (.upPush b) s = .next
    (if s.upIdx = 0 then { s with upMask := b, upIdx := 1 }
     else { s with
       out := s.out ++ [(b &&& 0x7F) ||| (((s.upMask >>> (s.upIdx.toNat - 1)) &&& 1) <<< 7)]
       upIdx := if s.upIdx = 7 then 0 else s.upIdx + 1 })

/-- R114: UP_FLUSH in every `STATE` ends the array and emits nothing. -/
def Obligations.UpFlushEffect : Prop :=
  ∀ (imm : Byte) (s : State), exec (.upFlush imm) s = .next { s with upIdx := 0, upMask := 0x00 }

/-- R111: from an empty packer, pushing an array and flushing appends exactly its packed form to OUT and leaves the packer
empty. Premise: the invariant, which rules out a mask left over without a group. -/
def Obligations.PackerStreamsPack7to8 : Prop :=
  ∀ (x : List Byte) (imm : Byte) (s : State), Invariants s → s.pkCnt = 0 → s.pkFep = false → s.pkStop = false →
    ∃ g, execAll (x.map Instr.pkPush ++ [.pkFlush imm]) s = .next { s with out := s.out ++ pack7to8 x, pkGrp := g }

/-- R115: from the start of a group, pushing an array and flushing appends exactly its unpacked form to OUT and leaves the
unpacker at the start of a group. -/
def Obligations.UnpackerStreamsUnpack8to7 : Prop :=
  ∀ (p : List Byte) (imm : Byte) (s : State), s.upIdx = 0 →
    execAll (p.map Instr.upPush ++ [.upFlush imm]) s = .next { s with out := s.out ++ unpack8to7 p, upMask := 0x00 }

/-! ## Framer and SysEx encode -/

/-- R137: TX_OPEN in every `STATE` clears the session, writes the FCB as block 0 with its break, opens block 1, and
leaves the standalone state, OUT and the bytes of `DOC` from 46 on. -/
def Obligations.TxOpenStartsEncodeSession : Prop :=
  ∀ (imm : Byte) (s : State), ∃ d,
    exec (.txOpen imm) s = .next { s with
      rxSub := .waitF0, errCode := none, errCmd := 0x0000, rdValid := false
      rawLen := 46, blkCnt := 2, curLen := 4, sendIdx := 0, rdPtr := 0, rdData := 0x00
      msgStart := 0, rxSum := 0, rxHold := 0x00, holdV := false, rxMask := 0x00, rxIdx := 0
      blkStart := (s.blkStart.setIfInBounds 0 0).setIfInBounds 1 42
      doc := d, ctl := .txBuild } ∧
    ∀ a, Memory.read d a =
      if a < 46 then
        (s.params.fcbTemplate.toList ++ [0xFE, 0xFE, s.params.pdbMarker, s.params.pdbTag, 0x00, 0x00])[a]?
      else Memory.read s.doc a

/-- R138: TX_PUSH in `TX_BUILD` appends its byte at `RAWLEN`, or raises CapacityError when the RAM is full; elsewhere it raises
CommandError. -/
def Obligations.TxPushAppendsByte : Prop :=
  ∀ (b : Byte) (s : State),
    (s.ctl = .txBuild → s.rawLen.toNat < 26670 → ∃ d,
      exec (.txPush b) s = .next { s with doc := d, rawLen := s.rawLen + 1, curLen := s.curLen + 1 } ∧
      ∀ a, Memory.read d a = if a = s.rawLen.toNat then some b else Memory.read s.doc a) ∧
    (s.ctl = .txBuild → s.rawLen.toNat = 26670 →
      exec (.txPush b) s = .next (errorEntry .capacity (0x11#8 ++ b) s)) ∧
    (s.ctl ≠ .txBuild → s.ctl ≠ .err → exec (.txPush b) s = .next (errorEntry .command (0x11#8 ++ b) s))

/-- R132, R134, R135, R136 and R139: TX_EMIT_END in `TX_BUILD` does nothing while the block is short of 210 bytes. From 210
on it checks the block count, then the room, and breaks: one sentinel, a padding sentinel where the length with the first is
odd and not 7, the next block's start, and its header. Elsewhere it raises CommandError. -/
def Obligations.TxEmitEndBreaksFullBlock : Prop :=
  ∀ (imm : Byte) (s : State) (pad : Nat),
    pad = (if (s.curLen.toNat + 1) % 2 = 1 ∧ s.curLen.toNat + 1 ≠ 7 then 1 else 0) →
    (s.ctl = .txBuild → s.curLen.toNat < 210 → exec (.txEmitEnd imm) s = .next s) ∧
    (s.ctl ≠ .txBuild → s.ctl ≠ .err → exec (.txEmitEnd imm) s = .next (errorEntry .command (0x12#8 ++ imm) s)) ∧
    (s.ctl = .txBuild → 210 ≤ s.curLen.toNat → s.blkCnt.toNat = 127 →
      exec (.txEmitEnd imm) s = .next (errorEntry .capacity (0x12#8 ++ imm) s)) ∧
    (s.ctl = .txBuild → 210 ≤ s.curLen.toNat → s.rawLen.toNat + 1 + pad + 4 > 26670 →
      exec (.txEmitEnd imm) s = .next (errorEntry .capacity (0x12#8 ++ imm) s)) ∧
    (s.ctl = .txBuild → 210 ≤ s.curLen.toNat → s.blkCnt.toNat ≠ 127 → s.rawLen.toNat + 1 + pad + 4 ≤ 26670 → ∃ d,
      exec (.txEmitEnd imm) s = .next { s with
        doc := d
        rawLen := s.rawLen + BitVec.ofNat 15 (1 + pad + 4)
        blkStart := s.blkStart.setIfInBounds s.blkCnt.toNat (s.rawLen + BitVec.ofNat 15 (1 + pad))
        blkCnt := s.blkCnt + 1, curLen := 4 } ∧
      ∀ a, Memory.read d a =
        if s.rawLen.toNat ≤ a ∧ a < s.rawLen.toNat + (1 + pad + 4) then
          (List.replicate (1 + pad) 0xFE ++ [s.params.pdbMarker, s.params.pdbTag, 0x00, 0x00])[a - s.rawLen.toNat]?
        else Memory.read s.doc a)

/-- R140: TX_CLOSE in `TX_BUILD` appends the final sentinel and closes the document, or raises CapacityError when the RAM is
full; elsewhere it raises CommandError. -/
def Obligations.TxCloseEndsDocument : Prop :=
  ∀ (imm : Byte) (s : State),
    (s.ctl = .txBuild → s.rawLen.toNat < 26670 → ∃ d,
      exec (.txClose imm) s = .next { s with
        doc := d, rawLen := s.rawLen + 1, curLen := s.curLen + 1, sendIdx := 0, ctl := .txClosed } ∧
      ∀ a, Memory.read d a = if a = s.rawLen.toNat then some 0xFE else Memory.read s.doc a) ∧
    (s.ctl = .txBuild → s.rawLen.toNat = 26670 →
      exec (.txClose imm) s = .next (errorEntry .capacity (0x13#8 ++ imm) s)) ∧
    (s.ctl ≠ .txBuild → s.ctl ≠ .err → exec (.txClose imm) s = .next (errorEntry .command (0x13#8 ++ imm) s))

/-- R36 and R141: TX_SEND in `TX_CLOSED` emits the message of block `SENDIDX`, whose raw content runs from its start to the
next block's start or to `RAWLEN`, and moves on; elsewhere it raises CommandError. Premise: the block's bytes exist and hold
values, which the invariant says of every block. -/
def Obligations.TxSendEmitsNextBlock : Prop :=
  ∀ (imm : Byte) (s : State) (raw : List Byte) (lo hi : Nat),
    (s.ctl = .txClosed → s.sendIdx.toNat < 127 →
      lo = blkStartAt s s.sendIdx.toNat →
      hi = (if s.sendIdx.toNat + 1 < s.blkCnt.toNat then blkStartAt s (s.sendIdx.toNat + 1) else s.rawLen.toNat) →
      raw.length = hi - lo → hi ≤ 26670 → (∀ j, j < raw.length → Memory.read s.doc (lo + j) = raw[j]?) →
      exec (.txSend imm) s = .next { s with
        out := s.out ++ [0xF0, s.params.mfrId, s.params.funcId, s.params.typeId, s.sendIdx.setWidth 8] ++ pack7to8 raw
          ++ [cks (pack7to8 raw), 0xF7]
        sendIdx := s.sendIdx + 1
        ctl := if s.sendIdx + 1 = s.blkCnt then .txSent else .txClosed }) ∧
    (s.ctl ≠ .txClosed → s.ctl ≠ .err → exec (.txSend imm) s = .next (errorEntry .command (0x14#8 ++ imm) s))

/-- Every message of a reachable `TX_CLOSED` state (sections "SysEx message" and "Properties of an encoded document"): TX_SEND
completes, emits one message with block index `SENDIDX`, which is below 127, moves `SENDIDX` on by 1, and every byte between
0xF0 and 0xF7 is below 0x80. -/
def Obligations.SentMessagesAreWellFormed : Prop :=
  ∀ (imm : Byte) (s : State), Invariants s → s.ctl = .txClosed → ∃ t mid,
    exec (.txSend imm) s = .next t ∧ t.out = s.out ++ [0xF0] ++ mid ++ [0xF7] ∧
    mid[3]? = some (s.sendIdx.setWidth 8) ∧ s.sendIdx.toNat < 127 ∧ t.sendIdx.toNat = s.sendIdx.toNat + 1 ∧
    ∀ b ∈ mid, b.toNat < 0x80

/-- An error in an encode session keeps the document, its counters and OUT (sections "Properties of an encoded document" and
"Error entry"). -/
def Obligations.EncodeErrorKeepsDocument : Prop :=
  ∀ (s t : State), s.ctl.isEncode = true → step s = .next t → t.ctl = .err →
    t.doc = s.doc ∧ t.rawLen = s.rawLen ∧ t.blkCnt = s.blkCnt ∧ t.blkStart = s.blkStart ∧ t.curLen = s.curLen ∧
    t.sendIdx = s.sendIdx ∧ t.out = s.out

/-! ## SysEx decode and the read port of the document -/

/-- R43 and R170: RX_OPEN in every `STATE` clears the session and waits for a message. -/
def Obligations.RxOpenStartsDecodeSession : Prop :=
  ∀ (imm : Byte) (s : State), exec (.rxOpen imm) s = .next { s with
    rxSub := .waitF0, errCode := none, errCmd := 0x0000, rdValid := false
    rawLen := 0, blkCnt := 0, curLen := 0, sendIdx := 0, rdPtr := 0, rdData := 0x00
    msgStart := 0, rxSum := 0, rxHold := 0x00, holdV := false, rxMask := 0x00, rxIdx := 0
    ctl := .rxActive }

/-- R172 and R173: between messages only 0xF0 is accepted; then each ID byte must equal its parameter. -/
def Obligations.RxByteChecksHeader : Prop :=
  ∀ (b : Byte) (s : State), s.ctl = .rxActive →
    (s.rxSub = .waitF0 → exec (.rxByte b) s = .next
      (if b = 0xF0 then { s with rxSub := .hdrMfr } else errorEntry .format (0x21#8 ++ b) s)) ∧
    (s.rxSub = .hdrMfr → exec (.rxByte b) s = .next
      (if b = s.params.mfrId then { s with rxSub := .hdrFunc } else errorEntry .format (0x21#8 ++ b) s)) ∧
    (s.rxSub = .hdrFunc → exec (.rxByte b) s = .next
      (if b = s.params.funcId then { s with rxSub := .hdrType } else errorEntry .format (0x21#8 ++ b) s)) ∧
    (s.rxSub = .hdrType → exec (.rxByte b) s = .next
      (if b = s.params.typeId then { s with rxSub := .hdrIdx } else errorEntry .format (0x21#8 ++ b) s))

/-- R174: the block index is checked for a data byte, for the running count, and for capacity, in this order; then the message
body opens. -/
def Obligations.RxByteChecksIndex : Prop :=
  ∀ (b : Byte) (s : State), s.ctl = .rxActive → s.rxSub = .hdrIdx →
    exec (.rxByte b) s = .next
      (if 0x80 ≤ b.toNat then errorEntry .format (0x21#8 ++ b) s
       else if b.toNat ≠ s.blkCnt.toNat then errorEntry .sequence (0x21#8 ++ b) s
       else if s.blkCnt.toNat = 127 then errorEntry .capacity (0x21#8 ++ b) s
       else { s with
         msgStart := s.rawLen, curLen := 0, rxSum := 0, rxHold := 0x00, holdV := false, rxMask := 0x00, rxIdx := 0
         rxSub := .body })

/-- R175: a data byte in the body is held; the byte held before it is summed, and is a mask byte or unpacks to one raw byte
appended at `RAWLEN`, for which there must be room. -/
def Obligations.RxByteAcceptsHeldByte : Prop :=
  ∀ (b : Byte) (s : State), s.ctl = .rxActive → s.rxSub = .body → b.toNat < 0x80 →
    (s.holdV = false → exec (.rxByte b) s = .next { s with rxHold := b, holdV := true }) ∧
    (s.holdV = true → s.rxIdx = 0 → exec (.rxByte b) s = .next { s with
      rxSum := BitVec.ofNat 7 ((s.rxSum.toNat + s.rxHold.toNat) % 128)
      rxMask := s.rxHold, rxIdx := 1, rxHold := b }) ∧
    (s.holdV = true → s.rxIdx ≠ 0 → s.rawLen.toNat = 26670 →
      exec (.rxByte b) s = .next (errorEntry .capacity (0x21#8 ++ b) s)) ∧
    (s.holdV = true → s.rxIdx ≠ 0 → s.rawLen.toNat < 26670 → ∃ d,
      exec (.rxByte b) s = .next { s with
        rxSum := BitVec.ofNat 7 ((s.rxSum.toNat + s.rxHold.toNat) % 128)
        rxIdx := if s.rxIdx = 7 then 0 else s.rxIdx + 1
        doc := d, rawLen := s.rawLen + 1, curLen := s.curLen + 1, rxHold := b } ∧
      ∀ a, Memory.read d a =
        if a = s.rawLen.toNat then
          some ((s.rxHold &&& 0x7F) ||| (((s.rxMask >>> (s.rxIdx.toNat - 1)) &&& 1) <<< 7))
        else Memory.read s.doc a)

/-- R176: at 0xF7 the held byte must exist and equal the running sum; then the message is complete and its block's start is
recorded. Premise of the last clause: fewer than 127 blocks, which the invariant says of every message body. -/
def Obligations.RxByteCompletesMessage : Prop :=
  ∀ s : State, s.ctl = .rxActive → s.rxSub = .body →
    (s.holdV = false → exec (.rxByte 0xF7) s = .next (errorEntry .format 0x21F7 s)) ∧
    (s.holdV = true → s.rxSum.toNat ≠ s.rxHold.toNat → exec (.rxByte 0xF7) s = .next (errorEntry .checksum 0x21F7 s)) ∧
    (s.holdV = true → s.rxSum.toNat = s.rxHold.toNat → s.blkCnt.toNat < 127 →
      exec (.rxByte 0xF7) s = .next { s with
        blkStart := s.blkStart.setIfInBounds s.blkCnt.toNat s.msgStart
        blkCnt := s.blkCnt + 1, holdV := false, rxHold := 0x00, rxSub := .waitF0 })

/-- R177: in the body any byte of 0x80 or more other than 0xF7 raises FormatError. -/
def Obligations.RxByteRejectsHighByte : Prop :=
  ∀ (b : Byte) (s : State), s.ctl = .rxActive → s.rxSub = .body → 0x80 ≤ b.toNat → b ≠ 0xF7 →
    exec (.rxByte b) s = .next (errorEntry .format (0x21#8 ++ b) s)

/-- R178: RX_END in `RX_ACTIVE` opens the read port between messages once one is received, and raises FormatError inside a
message or with no message received; elsewhere it raises CommandError. -/
def Obligations.RxEndCompletesDocument : Prop :=
  ∀ (imm : Byte) (s : State),
    (s.ctl = .rxActive → s.rxSub = .waitF0 → s.blkCnt ≠ 0 →
      exec (.rxEnd imm) s = .next { s with rdPtr := 0, ctl := .rxDone }) ∧
    (s.ctl = .rxActive → s.rxSub ≠ .waitF0 ∨ s.blkCnt = 0 →
      exec (.rxEnd imm) s = .next (errorEntry .format (0x22#8 ++ imm) s)) ∧
    (s.ctl ≠ .rxActive → s.ctl ≠ .err → exec (.rxEnd imm) s = .next (errorEntry .command (0x22#8 ++ imm) s))

/-- R179: RD_BYTE in `RX_DONE` returns the next byte of the document and advances, or reports the end; elsewhere it raises
CommandError. Premise of the first clause: the byte exists and holds a value, which the invariant says of every byte below
`RAWLEN`. -/
def Obligations.RdByteReturnsNextByte : Prop :=
  ∀ (imm : Byte) (s : State),
    (∀ v, s.ctl = .rxDone → s.rdPtr.toNat < s.rawLen.toNat → s.rdPtr.toNat < 26670 →
      Memory.read s.doc s.rdPtr.toNat = some v →
      exec (.rdByte imm) s = .next { s with rdData := v, rdValid := true, rdPtr := s.rdPtr + 1 }) ∧
    (s.ctl = .rxDone → s.rawLen.toNat ≤ s.rdPtr.toNat →
      exec (.rdByte imm) s = .next { s with rdData := 0x00, rdValid := false }) ∧
    (s.ctl ≠ .rxDone → s.ctl ≠ .err → exec (.rdByte imm) s = .next (errorEntry .command (0x23#8 ++ imm) s))

/-- R180: RD_SKIP_BREAK in `RX_DONE` skips a second sentinel, if the next byte is one, and then 4 bytes, stopping at `RAWLEN`;
elsewhere it raises CommandError. Premise of the first clause: the next byte exists and holds a value, which the invariant
says of every byte below `RAWLEN`. -/
def Obligations.RdSkipBreakSkipsHeader : Prop :=
  ∀ (imm : Byte) (s : State),
    (∀ v, s.ctl = .rxDone → s.rdPtr.toNat < s.rawLen.toNat → s.rdPtr.toNat < 26670 →
      Memory.read s.doc s.rdPtr.toNat = some v → ∃ q : BitVec 15,
      exec (.rdSkipBreak imm) s = .next { s with rdPtr := q } ∧
      q.toNat = min (s.rdPtr.toNat + (if v = 0xFE then 1 else 0) + 4) s.rawLen.toNat) ∧
    (s.ctl = .rxDone → s.rawLen.toNat ≤ s.rdPtr.toNat →
      exec (.rdSkipBreak imm) s = .next { s with rdPtr := s.rawLen }) ∧
    (s.ctl ≠ .rxDone → s.ctl ≠ .err → exec (.rdSkipBreak imm) s = .next (errorEntry .command (0x24#8 ++ imm) s))

/-- R181: an error in a decode session, from a command or a reserved word, discards the document, keeps what RD_BYTE last
handed over and where the parser stood, and RD_BYTE is then ignored. -/
def Obligations.DecodeErrorDiscardsDocument : Prop :=
  ∀ (s t : State), s.ctl.isDecode = true → step s = .next t → t.ctl = .err →
    t.rawLen = 0 ∧ t.blkCnt = 0 ∧ t.curLen = 0 ∧ t.rdPtr = 0 ∧ t.rdData = s.rdData ∧ t.rdValid = s.rdValid ∧
    t.rxSub = s.rxSub ∧ t.out = s.out ∧ ∀ imm, exec (.rdByte imm) t = .next t

/-- A whole message, fed byte by byte between messages, appends the unpacked payload at `RAWLEN` and records one block that
starts there (sections "The message parser" and "Properties of decode"). -/
def Obligations.RxMessageUnpacksPayload : Prop :=
  ∀ (s : State) (n : Byte) (payload : List Byte), s.ctl = .rxActive → s.rxSub = .waitF0 →
    n.toNat = s.blkCnt.toNat → s.blkCnt.toNat < 127 → (∀ b ∈ payload, b.toNat < 0x80) →
    s.rawLen.toNat + unpackedSize payload.length ≤ 26670 → ∃ t,
    execAll (messageCommands s.params n payload) s = .next t ∧
    t.ctl = .rxActive ∧ t.rxSub = .waitF0 ∧ t.blkCnt.toNat = s.blkCnt.toNat + 1 ∧
    t.rawLen.toNat = s.rawLen.toNat + unpackedSize payload.length ∧ t.curLen.toNat = unpackedSize payload.length ∧
    t.blkStart = s.blkStart.setIfInBounds s.blkCnt.toNat s.rawLen ∧ t.errCode = s.errCode ∧ t.out = s.out ∧
    ∀ a, Memory.read t.doc a =
      if s.rawLen.toNat ≤ a ∧ a < s.rawLen.toNat + unpackedSize payload.length then
        (unpack8to7 payload)[a - s.rawLen.toNat]?
      else Memory.read s.doc a

/-! ## Whole-machine rules -/

/-- The parameters of every machine meet their constraints, a set makes a machine exactly when it meets them (sections "Implementation
parameters" and "Reset and boot"), and no step writes them (section "Ordering and synchronisation", instruction-fetch
coherence). A step takes one issued word, the next one, and leaves the others issued, RESET too; that the machine holds them is
the model's choice (assumption log 1). -/
def Obligations.ParametersConstrainedAndReadOnly : Prop :=
  (∀ s : State, s.params.mfrId.toNat < 0x80 ∧ s.params.funcId.toNat < 0x80 ∧ s.params.typeId.toNat < 0x80 ∧
    s.params.pdbMarker ≠ 0xFE ∧ s.params.pdbTag ≠ 0xFE ∧ ∀ b ∈ s.params.fcbTemplate.toList, b ≠ 0xFE) ∧
  (∀ p : Params, (∃ b, BuiltParams.build p = .ok b ∧ b.toParams = p) ↔
    (p.mfrId.toNat < 0x80 ∧ p.funcId.toNat < 0x80 ∧ p.typeId.toNat < 0x80 ∧ p.pdbMarker ≠ 0xFE ∧ p.pdbTag ≠ 0xFE ∧
      ∀ b ∈ p.fcbTemplate.toList, b ≠ 0xFE)) ∧
  (∀ s t : State, step s = .next t → t.params = s.params ∧ t.cmdPort = s.cmdPort.tail)

/-- OUT is append-only: no command removes or changes an emitted byte, and only TX_SEND and the standalone commands emit
(section "Address spaces"). -/
def Obligations.OutIsAppendOnly : Prop :=
  (∀ s t : State, step s = .next t → s.out <+: t.out) ∧
  (∀ (i : Instr) (s t : State), exec i s = .next t → t.out ≠ s.out →
    ∃ b, i = .txSend b ∨ i = .pkPush b ∨ i = .pkFlush b ∨ i = .upPush b)

/-- `DOC` is written at `RAWLEN` only, which moves past each byte written: every byte a command changes lies from `RAWLEN`
before it up to, and not at, `RAWLEN` after it. TX_OPEN starts a new document and so writes from 0. Only TX_OPEN, TX_PUSH,
TX_EMIT_END, TX_CLOSE and RX_BYTE write (section "Address spaces"). That RESET leaves no listed byte is the model's choice
(assumption log 5). -/
def Obligations.DocWrittenOnlyByAppend : Prop :=
  ∀ (i : Instr) (s t : State), exec i s = .next t →
    (∀ a, Memory.read t.doc a ≠ Memory.read s.doc a → (∀ b, i ≠ .reset b) →
      a < t.rawLen.toNat ∧ ((∀ b, i ≠ .txOpen b) → s.rawLen.toNat ≤ a)) ∧
    (t.doc ≠ s.doc → ∃ b, i = .txOpen b ∨ i = .txPush b ∨ i = .txEmitEnd b ∨ i = .txClose b ∨ i = .rxByte b ∨
      i = .reset b)

/-- No session command and no OPEN touches the standalone packer or unpacker, an error no more than a completion (section
"Ordering and synchronisation", last rule, and "Hazards"). -/
def Obligations.SessionsLeaveStandaloneState : Prop :=
  ∀ (i : Instr) (s t : State), exec i s = .next t →
    (legalIn i ≠ none ∨ ∃ b, i = .txOpen b ∨ i = .rxOpen b) →
    t.pkGrp = s.pkGrp ∧ t.pkCnt = s.pkCnt ∧ t.pkMask = s.pkMask ∧ t.pkFep = s.pkFep ∧ t.pkStop = s.pkStop ∧
    t.upMask = s.upMask ∧ t.upIdx = s.upIdx

/-- The standalone commands complete in every `STATE` and change nothing but their own registers and OUT (sections "Standalone
streaming packer" and "Standalone streaming unpacker"). -/
def Obligations.StandaloneCommandsLeaveSession : Prop :=
  ∀ (i : Instr) (b : Byte) (s : State), i ∈ [.pkPush b, .pkFlush b, .upPush b, .upFlush b] → ∃ t, exec i s = .next t ∧
    t = { s with
      pkGrp := t.pkGrp, pkCnt := t.pkCnt, pkMask := t.pkMask, pkFep := t.pkFep, pkStop := t.pkStop
      upMask := t.upMask, upIdx := t.upIdx, out := t.out } ∧
    (i = .pkPush b ∨ i = .pkFlush b → t.upMask = s.upMask ∧ t.upIdx = s.upIdx) ∧
    (i = .upPush b ∨ i = .upFlush b → t.pkGrp = s.pkGrp ∧ t.pkCnt = s.pkCnt ∧ t.pkMask = s.pkMask ∧
      t.pkFep = s.pkFep ∧ t.pkStop = s.pkStop)

/-- Every step keeps the invariants R42 lists and those they rest on, from every state that meets them. -/
def Obligations.EveryStepKeepsInvariants : Prop :=
  ∀ s t : State, Invariants s → step s = .next t → Invariants t

/-- The reset state meets the invariants. -/
def Obligations.ResetMeetsInvariants : Prop := Invariants State.reset

/-- Every command completes in one step (section "Timing and the end of a run"): from a state that meets the invariants a step
gives a next state; it never faults and never refuses. -/
def Obligations.EveryCommandCompletes : Prop :=
  ∀ s : State, Invariants s → ∃ t, step s = .next t
end

