-- ==== Sys2Proof/Laws/Bits.lean ====
section
/-! SUPPORT. The two fields of a command word (R70), and the comparisons behind the byte classes (R82) and the checksum test
(R176). -/

namespace Sys2Proof

/-- The opcode field of a word put together from its fields. -/
theorem opcOf_append (opc imm : Byte) : opcOf (opc ++ imm) = opc := by
  apply BitVec.eq_of_getLsbD_eq
  intro i hi
  simp only [opcOf, BitVec.getLsbD_extractLsb', BitVec.getLsbD_append]
  simp [hi]

/-- The operand field of a word put together from its fields. -/
theorem immOf_append (opc imm : Byte) : immOf (opc ++ imm) = imm := by
  apply BitVec.eq_of_getLsbD_eq
  intro i hi
  simp only [immOf, BitVec.getLsbD_extractLsb', BitVec.getLsbD_append]
  simp [hi]

/-- A word is its two fields. -/
theorem opcOf_append_immOf (w : Word) : opcOf w ++ immOf w = w := by
  apply BitVec.eq_of_getLsbD_eq
  intro i hi
  simp only [opcOf, immOf, BitVec.getLsbD_extractLsb', BitVec.getLsbD_append]
  by_cases h : i < 8
  · simp [h]
  · simp [h, show 8 + (i - 8) = i by omega]; omega

namespace Machine

/-- A high byte is 0x80 or more. -/
theorem isHigh_eq_true (b : Byte) : isHigh b = true ↔ 0x80 ≤ b.toNat := by simp [isHigh]

/-- A byte that is not high is a data byte. -/
theorem isHigh_eq_false (b : Byte) : isHigh b = false ↔ b.toNat < 0x80 := by simp [isHigh]

/-- The checksum test compares numbers. -/
theorem rxSum_ne_iff (a : BitVec 7) (b : Byte) : a.setWidth 8 ≠ b ↔ a.toNat ≠ b.toNat := by
  rw [not_iff_not]
  constructor
  · rintro rfl; simp; omega
  · intro h; apply BitVec.eq_of_toNat_eq; simp; omega

end Machine

end Sys2Proof
end

