-- ==== Sys2Proof/Laws/State.lean ====
section
/-! SUPPORT. One lemma per field for each named update of the state, so that no later proof unfolds one. -/

namespace Sys2Proof.Machine

/-! ## ClearSession (R43) -/

@[simp] theorem clearSession_ctl (s : State) : (clearSession s).ctl = s.ctl := rfl
@[simp] theorem clearSession_rxSub (s : State) : (clearSession s).rxSub = .waitF0 := rfl
@[simp] theorem clearSession_errCode (s : State) : (clearSession s).errCode = none := rfl
@[simp] theorem clearSession_rdValid (s : State) : (clearSession s).rdValid = false := rfl
@[simp] theorem clearSession_blkCnt (s : State) : (clearSession s).blkCnt = 0 := rfl
@[simp] theorem clearSession_rawLen (s : State) : (clearSession s).rawLen = 0 := rfl
@[simp] theorem clearSession_curLen (s : State) : (clearSession s).curLen = 0 := rfl
@[simp] theorem clearSession_sendIdx (s : State) : (clearSession s).sendIdx = 0 := rfl
@[simp] theorem clearSession_rdPtr (s : State) : (clearSession s).rdPtr = 0 := rfl
@[simp] theorem clearSession_rdData (s : State) : (clearSession s).rdData = 0x00 := rfl
@[simp] theorem clearSession_errCmd (s : State) : (clearSession s).errCmd = 0x0000 := rfl
@[simp] theorem clearSession_blkStart (s : State) : (clearSession s).blkStart = s.blkStart := rfl
@[simp] theorem clearSession_msgStart (s : State) : (clearSession s).msgStart = 0 := rfl
@[simp] theorem clearSession_rxSum (s : State) : (clearSession s).rxSum = 0 := rfl
@[simp] theorem clearSession_rxHold (s : State) : (clearSession s).rxHold = 0x00 := rfl
@[simp] theorem clearSession_holdV (s : State) : (clearSession s).holdV = false := rfl
@[simp] theorem clearSession_rxMask (s : State) : (clearSession s).rxMask = 0x00 := rfl
@[simp] theorem clearSession_rxIdx (s : State) : (clearSession s).rxIdx = 0 := rfl
@[simp] theorem clearSession_pkGrp (s : State) : (clearSession s).pkGrp = s.pkGrp := rfl
@[simp] theorem clearSession_pkCnt (s : State) : (clearSession s).pkCnt = s.pkCnt := rfl
@[simp] theorem clearSession_pkMask (s : State) : (clearSession s).pkMask = s.pkMask := rfl
@[simp] theorem clearSession_pkFep (s : State) : (clearSession s).pkFep = s.pkFep := rfl
@[simp] theorem clearSession_pkStop (s : State) : (clearSession s).pkStop = s.pkStop := rfl
@[simp] theorem clearSession_upMask (s : State) : (clearSession s).upMask = s.upMask := rfl
@[simp] theorem clearSession_upIdx (s : State) : (clearSession s).upIdx = s.upIdx := rfl
@[simp] theorem clearSession_doc (s : State) : (clearSession s).doc = s.doc := rfl
@[simp] theorem clearSession_out (s : State) : (clearSession s).out = s.out := rfl
@[simp] theorem clearSession_params (s : State) : (clearSession s).params = s.params := rfl
@[simp] theorem clearSession_cmdPort (s : State) : (clearSession s).cmdPort = s.cmdPort := rfl

/-! ## Power-on reset (R44) -/

@[simp] theorem State.reset_eq : State.reset = State.powerOn Config.params := rfl
@[simp] theorem State.powerOn_ctl (p : BuiltParams) : (State.powerOn p).ctl = .idle := rfl
@[simp] theorem State.powerOn_rxSub (p : BuiltParams) : (State.powerOn p).rxSub = .waitF0 := rfl
@[simp] theorem State.powerOn_errCode (p : BuiltParams) : (State.powerOn p).errCode = none := rfl
@[simp] theorem State.powerOn_rdValid (p : BuiltParams) : (State.powerOn p).rdValid = false := rfl
@[simp] theorem State.powerOn_blkCnt (p : BuiltParams) : (State.powerOn p).blkCnt = 0 := rfl
@[simp] theorem State.powerOn_rawLen (p : BuiltParams) : (State.powerOn p).rawLen = 0 := rfl
@[simp] theorem State.powerOn_curLen (p : BuiltParams) : (State.powerOn p).curLen = 0 := rfl
@[simp] theorem State.powerOn_sendIdx (p : BuiltParams) : (State.powerOn p).sendIdx = 0 := rfl
@[simp] theorem State.powerOn_rdPtr (p : BuiltParams) : (State.powerOn p).rdPtr = 0 := rfl
@[simp] theorem State.powerOn_rdData (p : BuiltParams) : (State.powerOn p).rdData = 0x00 := rfl
@[simp] theorem State.powerOn_errCmd (p : BuiltParams) : (State.powerOn p).errCmd = 0x0000 := rfl
@[simp] theorem State.powerOn_blkStart (p : BuiltParams) : (State.powerOn p).blkStart = Vector.replicate 127 0 := rfl
@[simp] theorem State.powerOn_msgStart (p : BuiltParams) : (State.powerOn p).msgStart = 0 := rfl
@[simp] theorem State.powerOn_rxSum (p : BuiltParams) : (State.powerOn p).rxSum = 0 := rfl
@[simp] theorem State.powerOn_rxHold (p : BuiltParams) : (State.powerOn p).rxHold = 0x00 := rfl
@[simp] theorem State.powerOn_holdV (p : BuiltParams) : (State.powerOn p).holdV = false := rfl
@[simp] theorem State.powerOn_rxMask (p : BuiltParams) : (State.powerOn p).rxMask = 0x00 := rfl
@[simp] theorem State.powerOn_rxIdx (p : BuiltParams) : (State.powerOn p).rxIdx = 0 := rfl
@[simp] theorem State.powerOn_pkGrp (p : BuiltParams) : (State.powerOn p).pkGrp = Vector.replicate 7 0 := rfl
@[simp] theorem State.powerOn_pkCnt (p : BuiltParams) : (State.powerOn p).pkCnt = 0 := rfl
@[simp] theorem State.powerOn_pkMask (p : BuiltParams) : (State.powerOn p).pkMask = 0x00 := rfl
@[simp] theorem State.powerOn_pkFep (p : BuiltParams) : (State.powerOn p).pkFep = false := rfl
@[simp] theorem State.powerOn_pkStop (p : BuiltParams) : (State.powerOn p).pkStop = false := rfl
@[simp] theorem State.powerOn_upMask (p : BuiltParams) : (State.powerOn p).upMask = 0x00 := rfl
@[simp] theorem State.powerOn_upIdx (p : BuiltParams) : (State.powerOn p).upIdx = 0 := rfl
@[simp] theorem State.powerOn_doc (p : BuiltParams) : (State.powerOn p).doc = [] := rfl
@[simp] theorem State.powerOn_out (p : BuiltParams) : (State.powerOn p).out = [] := rfl
@[simp] theorem State.powerOn_params (p : BuiltParams) : (State.powerOn p).params = p := rfl
@[simp] theorem State.powerOn_cmdPort (p : BuiltParams) : (State.powerOn p).cmdPort = [] := rfl

/-! ## RESET (R211) -/

@[simp] theorem resetBlock_ctl (s : State) : (resetBlock s).ctl = .idle := rfl
@[simp] theorem resetBlock_rxSub (s : State) : (resetBlock s).rxSub = .waitF0 := rfl
@[simp] theorem resetBlock_errCode (s : State) : (resetBlock s).errCode = none := rfl
@[simp] theorem resetBlock_rdValid (s : State) : (resetBlock s).rdValid = false := rfl
@[simp] theorem resetBlock_blkCnt (s : State) : (resetBlock s).blkCnt = 0 := rfl
@[simp] theorem resetBlock_rawLen (s : State) : (resetBlock s).rawLen = 0 := rfl
@[simp] theorem resetBlock_curLen (s : State) : (resetBlock s).curLen = 0 := rfl
@[simp] theorem resetBlock_sendIdx (s : State) : (resetBlock s).sendIdx = 0 := rfl
@[simp] theorem resetBlock_rdPtr (s : State) : (resetBlock s).rdPtr = 0 := rfl
@[simp] theorem resetBlock_rdData (s : State) : (resetBlock s).rdData = 0x00 := rfl
@[simp] theorem resetBlock_errCmd (s : State) : (resetBlock s).errCmd = 0x0000 := rfl
@[simp] theorem resetBlock_blkStart (s : State) : (resetBlock s).blkStart = Vector.replicate 127 0 := rfl
@[simp] theorem resetBlock_msgStart (s : State) : (resetBlock s).msgStart = 0 := rfl
@[simp] theorem resetBlock_rxSum (s : State) : (resetBlock s).rxSum = 0 := rfl
@[simp] theorem resetBlock_rxHold (s : State) : (resetBlock s).rxHold = 0x00 := rfl
@[simp] theorem resetBlock_holdV (s : State) : (resetBlock s).holdV = false := rfl
@[simp] theorem resetBlock_rxMask (s : State) : (resetBlock s).rxMask = 0x00 := rfl
@[simp] theorem resetBlock_rxIdx (s : State) : (resetBlock s).rxIdx = 0 := rfl
@[simp] theorem resetBlock_pkGrp (s : State) : (resetBlock s).pkGrp = Vector.replicate 7 0 := rfl
@[simp] theorem resetBlock_pkCnt (s : State) : (resetBlock s).pkCnt = 0 := rfl
@[simp] theorem resetBlock_pkMask (s : State) : (resetBlock s).pkMask = 0x00 := rfl
@[simp] theorem resetBlock_pkFep (s : State) : (resetBlock s).pkFep = false := rfl
@[simp] theorem resetBlock_pkStop (s : State) : (resetBlock s).pkStop = false := rfl
@[simp] theorem resetBlock_upMask (s : State) : (resetBlock s).upMask = 0x00 := rfl
@[simp] theorem resetBlock_upIdx (s : State) : (resetBlock s).upIdx = 0 := rfl
@[simp] theorem resetBlock_doc (s : State) : (resetBlock s).doc = [] := rfl
@[simp] theorem resetBlock_out (s : State) : (resetBlock s).out = s.out := rfl
@[simp] theorem resetBlock_params (s : State) : (resetBlock s).params = s.params := rfl
@[simp] theorem resetBlock_cmdPort (s : State) : (resetBlock s).cmdPort = s.cmdPort := rfl

/-! ## Emit (R56) -/

@[simp] theorem emit_ctl (xs : List Byte) (s : State) : (emit xs s).ctl = s.ctl := rfl
@[simp] theorem emit_rxSub (xs : List Byte) (s : State) : (emit xs s).rxSub = s.rxSub := rfl
@[simp] theorem emit_errCode (xs : List Byte) (s : State) : (emit xs s).errCode = s.errCode := rfl
@[simp] theorem emit_rdValid (xs : List Byte) (s : State) : (emit xs s).rdValid = s.rdValid := rfl
@[simp] theorem emit_blkCnt (xs : List Byte) (s : State) : (emit xs s).blkCnt = s.blkCnt := rfl
@[simp] theorem emit_rawLen (xs : List Byte) (s : State) : (emit xs s).rawLen = s.rawLen := rfl
@[simp] theorem emit_curLen (xs : List Byte) (s : State) : (emit xs s).curLen = s.curLen := rfl
@[simp] theorem emit_sendIdx (xs : List Byte) (s : State) : (emit xs s).sendIdx = s.sendIdx := rfl
@[simp] theorem emit_rdPtr (xs : List Byte) (s : State) : (emit xs s).rdPtr = s.rdPtr := rfl
@[simp] theorem emit_rdData (xs : List Byte) (s : State) : (emit xs s).rdData = s.rdData := rfl
@[simp] theorem emit_errCmd (xs : List Byte) (s : State) : (emit xs s).errCmd = s.errCmd := rfl
@[simp] theorem emit_blkStart (xs : List Byte) (s : State) : (emit xs s).blkStart = s.blkStart := rfl
@[simp] theorem emit_msgStart (xs : List Byte) (s : State) : (emit xs s).msgStart = s.msgStart := rfl
@[simp] theorem emit_rxSum (xs : List Byte) (s : State) : (emit xs s).rxSum = s.rxSum := rfl
@[simp] theorem emit_rxHold (xs : List Byte) (s : State) : (emit xs s).rxHold = s.rxHold := rfl
@[simp] theorem emit_holdV (xs : List Byte) (s : State) : (emit xs s).holdV = s.holdV := rfl
@[simp] theorem emit_rxMask (xs : List Byte) (s : State) : (emit xs s).rxMask = s.rxMask := rfl
@[simp] theorem emit_rxIdx (xs : List Byte) (s : State) : (emit xs s).rxIdx = s.rxIdx := rfl
@[simp] theorem emit_pkGrp (xs : List Byte) (s : State) : (emit xs s).pkGrp = s.pkGrp := rfl
@[simp] theorem emit_pkCnt (xs : List Byte) (s : State) : (emit xs s).pkCnt = s.pkCnt := rfl
@[simp] theorem emit_pkMask (xs : List Byte) (s : State) : (emit xs s).pkMask = s.pkMask := rfl
@[simp] theorem emit_pkFep (xs : List Byte) (s : State) : (emit xs s).pkFep = s.pkFep := rfl
@[simp] theorem emit_pkStop (xs : List Byte) (s : State) : (emit xs s).pkStop = s.pkStop := rfl
@[simp] theorem emit_upMask (xs : List Byte) (s : State) : (emit xs s).upMask = s.upMask := rfl
@[simp] theorem emit_upIdx (xs : List Byte) (s : State) : (emit xs s).upIdx = s.upIdx := rfl
@[simp] theorem emit_doc (xs : List Byte) (s : State) : (emit xs s).doc = s.doc := rfl
@[simp] theorem emit_out (xs : List Byte) (s : State) : (emit xs s).out = s.out ++ xs := rfl
@[simp] theorem emit_params (xs : List Byte) (s : State) : (emit xs s).params = s.params := rfl
@[simp] theorem emit_cmdPort (xs : List Byte) (s : State) : (emit xs s).cmdPort = s.cmdPort := rfl

/-! ## The command port (R70) -/

@[simp] theorem issueWord_ctl (w : Word) (s : State) : (issueWord w s).ctl = s.ctl := rfl
@[simp] theorem issueWord_rxSub (w : Word) (s : State) : (issueWord w s).rxSub = s.rxSub := rfl
@[simp] theorem issueWord_errCode (w : Word) (s : State) : (issueWord w s).errCode = s.errCode := rfl
@[simp] theorem issueWord_rdValid (w : Word) (s : State) : (issueWord w s).rdValid = s.rdValid := rfl
@[simp] theorem issueWord_blkCnt (w : Word) (s : State) : (issueWord w s).blkCnt = s.blkCnt := rfl
@[simp] theorem issueWord_rawLen (w : Word) (s : State) : (issueWord w s).rawLen = s.rawLen := rfl
@[simp] theorem issueWord_curLen (w : Word) (s : State) : (issueWord w s).curLen = s.curLen := rfl
@[simp] theorem issueWord_sendIdx (w : Word) (s : State) : (issueWord w s).sendIdx = s.sendIdx := rfl
@[simp] theorem issueWord_rdPtr (w : Word) (s : State) : (issueWord w s).rdPtr = s.rdPtr := rfl
@[simp] theorem issueWord_rdData (w : Word) (s : State) : (issueWord w s).rdData = s.rdData := rfl
@[simp] theorem issueWord_errCmd (w : Word) (s : State) : (issueWord w s).errCmd = s.errCmd := rfl
@[simp] theorem issueWord_blkStart (w : Word) (s : State) : (issueWord w s).blkStart = s.blkStart := rfl
@[simp] theorem issueWord_msgStart (w : Word) (s : State) : (issueWord w s).msgStart = s.msgStart := rfl
@[simp] theorem issueWord_rxSum (w : Word) (s : State) : (issueWord w s).rxSum = s.rxSum := rfl
@[simp] theorem issueWord_rxHold (w : Word) (s : State) : (issueWord w s).rxHold = s.rxHold := rfl
@[simp] theorem issueWord_holdV (w : Word) (s : State) : (issueWord w s).holdV = s.holdV := rfl
@[simp] theorem issueWord_rxMask (w : Word) (s : State) : (issueWord w s).rxMask = s.rxMask := rfl
@[simp] theorem issueWord_rxIdx (w : Word) (s : State) : (issueWord w s).rxIdx = s.rxIdx := rfl
@[simp] theorem issueWord_pkGrp (w : Word) (s : State) : (issueWord w s).pkGrp = s.pkGrp := rfl
@[simp] theorem issueWord_pkCnt (w : Word) (s : State) : (issueWord w s).pkCnt = s.pkCnt := rfl
@[simp] theorem issueWord_pkMask (w : Word) (s : State) : (issueWord w s).pkMask = s.pkMask := rfl
@[simp] theorem issueWord_pkFep (w : Word) (s : State) : (issueWord w s).pkFep = s.pkFep := rfl
@[simp] theorem issueWord_pkStop (w : Word) (s : State) : (issueWord w s).pkStop = s.pkStop := rfl
@[simp] theorem issueWord_upMask (w : Word) (s : State) : (issueWord w s).upMask = s.upMask := rfl
@[simp] theorem issueWord_upIdx (w : Word) (s : State) : (issueWord w s).upIdx = s.upIdx := rfl
@[simp] theorem issueWord_doc (w : Word) (s : State) : (issueWord w s).doc = s.doc := rfl
@[simp] theorem issueWord_out (w : Word) (s : State) : (issueWord w s).out = s.out := rfl
@[simp] theorem issueWord_params (w : Word) (s : State) : (issueWord w s).params = s.params := rfl
@[simp] theorem issueWord_cmdPort (w : Word) (s : State) : (issueWord w s).cmdPort = w :: s.cmdPort := rfl

/-! ## Error entry (R226) -/

/-- Error entry in a decode session discards the document. -/
theorem errorEntry_decode (k : ErrKind) (w : Word) (s : State) (h : s.ctl = .rxActive ∨ s.ctl = .rxDone) :
    errorEntry k w s =
      { s with errCode := some k, errCmd := w, rawLen := 0, blkCnt := 0, curLen := 0, rdPtr := 0, ctl := .err } := by
  simp [errorEntry, h]

/-- Error entry elsewhere keeps the document. -/
theorem errorEntry_keep (k : ErrKind) (w : Word) (s : State) (h : ¬ (s.ctl = .rxActive ∨ s.ctl = .rxDone)) :
    errorEntry k w s = { s with errCode := some k, errCmd := w, ctl := .err } := by
  simp [errorEntry, h]

@[simp] theorem errorEntry_ctl (k : ErrKind) (w : Word) (s : State) : (errorEntry k w s).ctl = .err := by
  unfold errorEntry; split <;> rfl
@[simp] theorem errorEntry_rxSub (k : ErrKind) (w : Word) (s : State) : (errorEntry k w s).rxSub = s.rxSub := by
  unfold errorEntry; split <;> rfl
@[simp] theorem errorEntry_errCode (k : ErrKind) (w : Word) (s : State) : (errorEntry k w s).errCode = some k := by
  unfold errorEntry; split <;> rfl
@[simp] theorem errorEntry_rdValid (k : ErrKind) (w : Word) (s : State) : (errorEntry k w s).rdValid = s.rdValid := by
  unfold errorEntry; split <;> rfl
@[simp] theorem errorEntry_sendIdx (k : ErrKind) (w : Word) (s : State) : (errorEntry k w s).sendIdx = s.sendIdx := by
  unfold errorEntry; split <;> rfl
@[simp] theorem errorEntry_rdData (k : ErrKind) (w : Word) (s : State) : (errorEntry k w s).rdData = s.rdData := by
  unfold errorEntry; split <;> rfl
@[simp] theorem errorEntry_errCmd (k : ErrKind) (w : Word) (s : State) : (errorEntry k w s).errCmd = w := by
  unfold errorEntry; split <;> rfl
@[simp] theorem errorEntry_blkStart (k : ErrKind) (w : Word) (s : State) : (errorEntry k w s).blkStart = s.blkStart := by
  unfold errorEntry; split <;> rfl
@[simp] theorem errorEntry_msgStart (k : ErrKind) (w : Word) (s : State) : (errorEntry k w s).msgStart = s.msgStart := by
  unfold errorEntry; split <;> rfl
@[simp] theorem errorEntry_rxSum (k : ErrKind) (w : Word) (s : State) : (errorEntry k w s).rxSum = s.rxSum := by
  unfold errorEntry; split <;> rfl
@[simp] theorem errorEntry_rxHold (k : ErrKind) (w : Word) (s : State) : (errorEntry k w s).rxHold = s.rxHold := by
  unfold errorEntry; split <;> rfl
@[simp] theorem errorEntry_holdV (k : ErrKind) (w : Word) (s : State) : (errorEntry k w s).holdV = s.holdV := by
  unfold errorEntry; split <;> rfl
@[simp] theorem errorEntry_rxMask (k : ErrKind) (w : Word) (s : State) : (errorEntry k w s).rxMask = s.rxMask := by
  unfold errorEntry; split <;> rfl
@[simp] theorem errorEntry_rxIdx (k : ErrKind) (w : Word) (s : State) : (errorEntry k w s).rxIdx = s.rxIdx := by
  unfold errorEntry; split <;> rfl
@[simp] theorem errorEntry_pkGrp (k : ErrKind) (w : Word) (s : State) : (errorEntry k w s).pkGrp = s.pkGrp := by
  unfold errorEntry; split <;> rfl
@[simp] theorem errorEntry_pkCnt (k : ErrKind) (w : Word) (s : State) : (errorEntry k w s).pkCnt = s.pkCnt := by
  unfold errorEntry; split <;> rfl
@[simp] theorem errorEntry_pkMask (k : ErrKind) (w : Word) (s : State) : (errorEntry k w s).pkMask = s.pkMask := by
  unfold errorEntry; split <;> rfl
@[simp] theorem errorEntry_pkFep (k : ErrKind) (w : Word) (s : State) : (errorEntry k w s).pkFep = s.pkFep := by
  unfold errorEntry; split <;> rfl
@[simp] theorem errorEntry_pkStop (k : ErrKind) (w : Word) (s : State) : (errorEntry k w s).pkStop = s.pkStop := by
  unfold errorEntry; split <;> rfl
@[simp] theorem errorEntry_upMask (k : ErrKind) (w : Word) (s : State) : (errorEntry k w s).upMask = s.upMask := by
  unfold errorEntry; split <;> rfl
@[simp] theorem errorEntry_upIdx (k : ErrKind) (w : Word) (s : State) : (errorEntry k w s).upIdx = s.upIdx := by
  unfold errorEntry; split <;> rfl
@[simp] theorem errorEntry_doc (k : ErrKind) (w : Word) (s : State) : (errorEntry k w s).doc = s.doc := by
  unfold errorEntry; split <;> rfl
@[simp] theorem errorEntry_out (k : ErrKind) (w : Word) (s : State) : (errorEntry k w s).out = s.out := by
  unfold errorEntry; split <;> rfl
@[simp] theorem errorEntry_params (k : ErrKind) (w : Word) (s : State) : (errorEntry k w s).params = s.params := by
  unfold errorEntry; split <;> rfl
@[simp] theorem errorEntry_cmdPort (k : ErrKind) (w : Word) (s : State) : (errorEntry k w s).cmdPort = s.cmdPort := by
  unfold errorEntry; split <;> rfl

end Sys2Proof.Machine
end

