-- ==== Sys2Proof/Laws/Ops.lean ====
section
/-! SUPPORT. What each shared operation can do, said once: `Append`, the reads of `DOC`, `BLKSTART`, the break, and how a
command ends. -/

namespace Sys2Proof.Machine

/-! ## Bodies in sequence -/

/-- A body after one that went on. -/
@[simp] theorem ok_bind {α β : Type} (a : α) (f : α → Except Stop β) : (Except.ok a >>= f) = f a := rfl

/-- Nothing follows a body that ended early. -/
@[simp] theorem error_bind {α β : Type} (e : Stop) (f : α → Except Stop β) :
    ((Except.error e : Except Stop α) >>= f) = .error e := rfl

/-- The value of a body that writes nothing. -/
@[simp] theorem pure_eq_ok {α : Type} (a : α) : (pure a : Except Stop α) = .ok a := rfl

/-! ## Append (R53) -/

/-- The document RAM after bytes are written from an address on. -/
def Memory.writeAll : List Host.Cell → Nat → List Byte → List Host.Cell
  | m, _, [] => m
  | m, a, b :: bs => Memory.writeAll (Memory.write m a b) (a + 1) bs

/-- Reading after bytes were written from `a` on. -/
theorem Memory.read_writeAll (bs : List Byte) (m : List Host.Cell) (a c : Nat) :
    Memory.read (Memory.writeAll m a bs) c =
      if a ≤ c ∧ c < a + bs.length then bs[c - a]? else Memory.read m c := by
  induction bs generalizing m a with
  | nil => simp [Memory.writeAll]
  | cons b bs ih =>
    rw [Memory.writeAll, ih, Memory.read_write]
    simp only [List.length_cons]
    by_cases hc : c = a
    · subst hc; simp
    · by_cases h : a + 1 ≤ c
      · have : c - a = (c - (a + 1)) + 1 := by omega
        simp only [hc, this, List.getElem?_cons_succ, if_false]
        congr 1
        exact propext (by omega)
      · rw [if_neg (by omega), if_neg hc, if_neg (by omega)]

/-- Writes at addresses that exist keep the canonical form. -/
theorem Memory.wf_writeAll (bs : List Byte) {m : List Host.Cell} {a : Nat} (h : a + bs.length ≤ Config.rawCap)
    (hm : Memory.wf m = true) : Memory.wf (Memory.writeAll m a bs) = true := by
  induction bs generalizing m a with
  | nil => exact hm
  | cons b bs ih =>
    simp only [List.length_cons] at h
    exact ih (by omega) (Memory.wf_write b (by omega) hm)

/-- The state after bytes are appended. -/
def appended (bs : List Byte) (s : State) : State :=
  { s with
    doc := Memory.writeAll s.doc s.rawLen.toNat bs
    rawLen := s.rawLen + BitVec.ofNat 15 bs.length
    curLen := s.curLen + BitVec.ofNat 15 bs.length }

/-- `Append` where there is room. -/
theorem append_ok (b : Byte) {s : State} (h : s.rawLen.toNat < Config.rawCap) :
    append b s = .ok (appended [b] s) := by
  simp [append, memWrite, h, appended, Memory.writeAll]

/-- `Append` where there is none: the model stops (assumption log 6). -/
theorem append_fault (b : Byte) {s : State} (h : ¬ s.rawLen.toNat < Config.rawCap) :
    append b s = .error (.fault (.docAddress s.rawLen.toNat)) := by
  simp [append, memWrite, h]

/-- `Append` of several bytes where there is room for all of them. -/
theorem appendAll_ok (bs : List Byte) {s : State} (h : s.rawLen.toNat + bs.length ≤ Config.rawCap) :
    appendAll bs s = .ok (appended bs s) := by
  induction bs generalizing s with
  | nil => simp [appendAll, appended, Memory.writeAll]
  | cons b bs ih =>
    simp only [List.length_cons, Config.rawCap] at h
    have hlen : (appended [b] s).rawLen.toNat = s.rawLen.toNat + 1 := by
      simp only [appended, List.length_singleton, BitVec.toNat_add, BitVec.toNat_ofNat]; omega
    have hbs : (appended [b] s).rawLen.toNat + bs.length ≤ Config.rawCap := by
      simp only [hlen, Config.rawCap]; omega
    rw [appendAll, append_ok b (by simp only [Config.rawCap]; omega)]
    rw [ok_bind, ih hbs]
    simp only [appended, Except.ok.injEq, State.mk.injEq, true_and, and_true, Memory.writeAll,
      List.length_cons]
    have h2 : (s.rawLen + BitVec.ofNat 15 1).toNat = s.rawLen.toNat + 1 := hlen
    refine ⟨?_, ?_, ?_⟩
    · apply BitVec.eq_of_toNat_eq; simp [BitVec.toNat_add, BitVec.toNat_ofNat]; omega
    · apply BitVec.eq_of_toNat_eq; simp [BitVec.toNat_add, BitVec.toNat_ofNat]; omega
    · rw [List.length_nil, h2]

/-! ## Reads -/

/-- `MemRead` of a byte that exists and holds a value. -/
theorem memRead_ok {a : Nat} {s : State} {b : Byte} (ha : a < Config.rawCap) (h : Memory.read s.doc a = some b) :
    memRead a s = .ok b := by
  simp [memRead, ha, h]

/-- The bytes `MemRead` returns over a range that holds values. -/
theorem memReadList_ok (bs : List Byte) {lo : Nat} {s : State}
    (h : ∀ j (hj : j < bs.length), lo + j < Config.rawCap ∧ Memory.read s.doc (lo + j) = some bs[j]) :
    memReadList lo bs.length s = .ok bs := by
  induction bs generalizing lo with
  | nil => rfl
  | cons b bs ih =>
    have h0 := h 0 (by simp)
    simp only [Nat.add_zero, List.getElem_cons_zero] at h0
    have ht : memReadList (lo + 1) bs.length s = .ok bs := ih fun j hj => by
      have := h (j + 1) (by simpa using hj)
      simpa [Nat.add_assoc, Nat.add_comm 1 j] using this
    simp [memReadList, memRead_ok h0.1 h0.2, ht]

/-- A range below the cap in which every byte holds a value reads without a fault. -/
theorem memReadList_exists (n : Nat) {lo : Nat} {s : State} (hcap : lo + n ≤ Config.rawCap)
    (h : ∀ a, lo ≤ a → a < lo + n → (Memory.read s.doc a).isSome = true) :
    ∃ bs : List Byte, bs.length = n ∧ memReadList lo n s = .ok bs := by
  induction n generalizing lo with
  | zero => exact ⟨[], rfl, rfl⟩
  | succ n ih =>
    obtain ⟨b, hb⟩ := Option.isSome_iff_exists.mp (h lo (by omega) (by omega))
    obtain ⟨bs, hl, hr⟩ := ih (lo := lo + 1) (by omega) fun a h1 h2 => h a (by omega) (by omega)
    exact ⟨b :: bs, by simp [hl],
      by simp [memReadList, memRead_ok (by omega) hb, hr]⟩

/-- A `BLKSTART` entry that exists. -/
theorem readBlkStart_ok {i : Nat} (s : State) (h : i < 127) : readBlkStart i s = .ok s.blkStart[i] := by
  simp [readBlkStart, h]

/-- A write of a `BLKSTART` entry that exists. -/
theorem writeBlkStart_ok {i : Nat} (v : BitVec 15) (s : State) (h : i < 127) :
    writeBlkStart i v s = .ok { s with blkStart := s.blkStart.setIfInBounds i v } := by
  simp [writeBlkStart, h]

/-! ## The break (R136) -/

/-- The padding is one byte or none (R134). -/
theorem padNeeded_le (len : Nat) : padNeeded len ≤ 1 := by
  unfold padNeeded; split <;> omega

/-- The state after a break whose checks have passed. -/
def broken (s : State) : State :=
  let pad := padNeeded (s.curLen.toNat + 1)
  let t := appended (List.replicate (1 + pad) Config.sentinel) s
  appended (pdbHeader s.params)
    { t with blkStart := s.blkStart.setIfInBounds s.blkCnt.toNat t.rawLen, blkCnt := s.blkCnt + 1, curLen := 0 }

/-- A break with a block and the bytes to spare. -/
theorem breakBlock_ok {s : State} (hb : s.blkCnt.toNat ≠ Config.maxBlocks)
    (hr : s.rawLen.toNat + 1 + padNeeded (s.curLen.toNat + 1) + Config.pdbHdrLen ≤ Config.rawCap) :
    breakBlock s = .ok (broken s) := by
  have hb' : s.blkCnt.toNat < 127 := by
    have := s.blkCnt.isLt; simp only [Config.maxBlocks] at hb; omega
  have hp := padNeeded_le (s.curLen.toNat + 1)
  simp only [Config.pdbHdrLen, Config.rawCap] at hr
  have h1 : s.rawLen.toNat + (List.replicate (1 + padNeeded (s.curLen.toNat + 1)) Config.sentinel).length
      ≤ Config.rawCap := by simp only [List.length_replicate, Config.rawCap]; omega
  have hlen : (s.rawLen + BitVec.ofNat 15 (1 + padNeeded (s.curLen.toNat + 1))).toNat
      = s.rawLen.toNat + (1 + padNeeded (s.curLen.toNat + 1)) := by
    simp only [BitVec.toNat_add, BitVec.toNat_ofNat]; omega
  have hpass : ¬ (s.rawLen.toNat + 1 + padNeeded (s.curLen.toNat + 1) + Config.pdbHdrLen > Config.rawCap) := by
    simp only [Config.pdbHdrLen, Config.rawCap]; omega
  simp only [breakBlock, if_neg hb, if_neg hpass, breakWrites, appendAll_ok _ h1, ok_bind]
  have hw := writeBlkStart_ok (i := s.blkCnt.toNat)
    (appended (List.replicate (1 + padNeeded (s.curLen.toNat + 1)) Config.sentinel) s).rawLen
    (appended (List.replicate (1 + padNeeded (s.curLen.toNat + 1)) Config.sentinel) s) hb'
  simp only [appended, List.length_replicate] at hw ⊢
  rw [hw, ok_bind, appendAll_ok]
  · simp [broken, appended]
  · simp only [hlen, pdbHeader, List.length_cons, List.length_nil, Config.rawCap]; omega

/-- A break without a block to spare (R135). -/
theorem breakBlock_blocks {s : State} (hb : s.blkCnt.toNat = Config.maxBlocks) :
    breakBlock s = .error (.raise .capacity) := by
  simp [breakBlock, hb]

/-- A break without room for its bytes (R135). -/
theorem breakBlock_raw {s : State} (hb : s.blkCnt.toNat ≠ Config.maxBlocks)
    (hr : s.rawLen.toNat + 1 + padNeeded (s.curLen.toNat + 1) + Config.pdbHdrLen > Config.rawCap) :
    breakBlock s = .error (.raise .capacity) := by
  simp [breakBlock, hb, hr]

/-! ## How a command ends -/

/-- A command's body that gives a next state, or an error. -/
theorem finish_next {w : Word} {s t : State} {r : Attempt} (h : finish w s r = .next t) :
    r = .ok t ∨ ∃ k, r = .error (.raise k) ∧ t = errorEntry k w s := by
  match r, h with
  | .ok u, h => exact .inl (by simpa [finish] using h)
  | .error (.raise k), h => exact .inr ⟨k, rfl, by simpa [finish] using h.symm⟩
  | .error (.fault f), h => simp [finish] at h

/-- In `ERR` a session command is ignored (R214). -/
theorem runSession_err {c : Ctl} {w : Word} {s : State} {f : State → Attempt} (h : s.ctl = .err) :
    runSession c w s f = .next s := by
  simp [runSession, h]

/-- Where it is not legal a session command raises CommandError (R212). -/
theorem runSession_illegal {c : Ctl} {w : Word} {s : State} {f : State → Attempt} (he : s.ctl ≠ .err)
    (h : s.ctl ≠ c) : runSession c w s f = .next (errorEntry .command w s) := by
  simp [runSession, he, h]

/-- Where it is legal a session command runs its body. -/
theorem runSession_legal {c : Ctl} {w : Word} {s : State} {f : State → Attempt} (he : c ≠ .err) (h : s.ctl = c) :
    runSession c w s f = finish w s (f s) := by
  simp [runSession, h, he]

/-- Everything a session command can do where it gives a next state. -/
theorem runSession_next {c : Ctl} {w : Word} {s t : State} {f : State → Attempt}
    (h : runSession c w s f = .next t) :
    (s.ctl = .err ∧ t = s) ∨ (s.ctl ≠ .err ∧ s.ctl = c ∧ f s = .ok t) ∨
      (s.ctl ≠ .err ∧ ∃ k, t = errorEntry k w s ∧
        ((s.ctl = c ∧ f s = .error (.raise k)) ∨ (s.ctl ≠ c ∧ k = .command))) := by
  unfold runSession at h
  split_ifs at h with h1 h2
  · exact .inl ⟨h1, by simpa using h.symm⟩
  · rcases finish_next h with hf | ⟨k, hf, hk⟩
    · exact .inr (.inl ⟨h1, h2, hf⟩)
    · exact .inr (.inr ⟨h1, k, hk, .inl ⟨h2, hf⟩⟩)
  · exact .inr (.inr ⟨h1, .command, by simpa using h.symm, .inr ⟨h2, rfl⟩⟩)

end Sys2Proof.Machine
end

