-- ==== Sys2Proof/Laws/Commands.lean ====
section
/-! SUPPORT. What each command can do, said once per command: the provers cite these lemmas instead of unfolding a body. -/

namespace Sys2Proof.Machine

/-! ## The document RAM and the block file -/

/-- Reading after bytes were appended. -/
theorem read_appended (bs : List Byte) (s : State) (a : Nat) : Memory.read (appended bs s).doc a =
   if s.rawLen.toNat ≤ a ∧ a < s.rawLen.toNat + bs.length then bs[a - s.rawLen.toNat]? else Memory.read s.doc a := by
  simp [appended, Memory.read_writeAll]

/-- Reading after one byte was appended. -/
theorem read_appended_one (b : Byte) (s : State) (a : Nat) : Memory.read (appended [b] s).doc a =
   if a = s.rawLen.toNat then some b else Memory.read s.doc a := by
  rw [read_appended]
  by_cases h : a = s.rawLen.toNat
  · subst h; simp
  · rw [if_neg (by simp; omega), if_neg h]

/-- `RAWLEN` after bytes were appended with room for all of them. -/
theorem appended_rawLen_toNat {bs} {s : State} (h : s.rawLen.toNat + bs.length ≤ Config.rawCap) :
    (appended bs s).rawLen.toNat = s.rawLen.toNat + bs.length := by
  simp only [Config.rawCap] at h
  simp [appended, BitVec.toNat_add]; omega

/-- Appending with room keeps the canonical form. -/
theorem wf_appended {bs s} (h : s.rawLen.toNat + bs.length ≤ Config.rawCap) (hw : Memory.wf s.doc = true) :
    Memory.wf (appended bs s).doc = true :=
  Memory.wf_writeAll bs h hw

/-- After appending, every byte below the new `RAWLEN` holds a value. -/
theorem filled_appended {bs} {s : State} (hw : ∀ a, a < s.rawLen.toNat → (Memory.read s.doc a).isSome = true) :
    ∀ a, a < s.rawLen.toNat + bs.length → (Memory.read (appended bs s).doc a).isSome = true := by
  intro a ha
  rw [read_appended]
  split_ifs with h1
  · rw [List.getElem?_eq_getElem (by omega)]; rfl
  · exact hw a (by omega)

/-- An entry of `BLKSTART` as `blkStartAt` reads it. -/
theorem blkStart_getElem (s : State) (i : Nat) (h : i < 127) : s.blkStart[i].toNat = blkStartAt s i := by
  simp [blkStartAt, List.getD, h]

/-- `blkStartAt` after one entry was written. -/
theorem blkStartAt_setIfInBounds (s : State) (i j : Nat) (v : BitVec 15) (hj : i < 127) :
    ((s.blkStart.setIfInBounds i v).toList.getD j 0).toNat = if j = i then v.toNat else blkStartAt s j := by
  unfold blkStartAt
  generalize s.blkStart = x
  obtain ⟨x, hx⟩ := x
  have : (Vector.setIfInBounds (⟨x, hx⟩ : Vector (BitVec 15) 127) i v).toList = x.toList.set i v := by
    simp [Vector.setIfInBounds, Vector.toList]
  have h2 : (⟨x, hx⟩ : Vector (BitVec 15) 127).toList = x.toList := rfl
  rw [this, h2]
  have hl : x.toList.length = 127 := by simp [hx]
  clear this h2
  generalize x.toList = l at hl
  simp only [List.getD, List.getElem?_set]
  by_cases h : i = j
  · subst h; simp [hl, hj]
  · rw [if_neg h, if_neg (fun g => h g.symm)]

/-- The raw content of a block whose bytes all hold values (R36). -/
theorem blockBytes_ok {s : State} {i lo hi : Nat} {raw : List Byte} (h0 : i < 127)
   (h1 : lo = blkStartAt s i) (h2 : hi = (if i + 1 < s.blkCnt.toNat then blkStartAt s (i + 1) else s.rawLen.toNat))
   (h3 : raw.length = hi - lo) (h4 : hi ≤ 26670) (h5 : ∀ j, j < raw.length → Memory.read s.doc (lo + j) =
       raw[j]?) : blockBytes i s = .ok raw := by
  have hb := s.blkCnt.isLt
  unfold blockBytes
  rw [readBlkStart_ok _ h0, ok_bind]
  have : ∃ v, blkEnd i s = .ok v ∧ v.toNat = hi := by
    unfold blkEnd; split_ifs with h
    · have : i + 1 < 127 := by omega
      exact ⟨_, readBlkStart_ok _ this, by rw [blkStart_getElem, h2, if_pos h]⟩
    · exact ⟨_, rfl, by rw [h2, if_neg h]⟩
  obtain ⟨v, e, hv⟩ := this
  rw [e, ok_bind, hv, blkStart_getElem, ← h1, ← h3]
  apply memReadList_ok
  intro j hj
  refine ⟨by simp only [Config.rawCap]; omega, ?_⟩
  rw [h5 j hj]; simp [hj]

/-! ## Reads only fault -/

/-- A read of `DOC` that does not answer is a fault of the model, never an error. -/
theorem memRead_error {a s e} (h : memRead a s = .error e) : ∃ f, e = .fault f := by
  unfold memRead at h
  split at h
  · split at h <;> simp at h; exact ⟨_, h.symm⟩
  · simp at h; exact ⟨_, h.symm⟩

/-- The same of a read of several bytes. -/
theorem memReadList_error {n lo s e} (h : memReadList lo n s = .error e) : ∃ f, e = .fault f := by
  induction n generalizing lo with
  | zero => simp [memReadList] at h
  | succ n ih =>
    unfold memReadList at h
    rcases h1 : memRead lo s with e1 | b
    · rw [h1] at h; simp at h; subst h; exact memRead_error h1
    · rw [h1] at h; simp only [ok_bind] at h
      rcases h2 : memReadList (lo+1) n s with e2 | bs
      · rw [h2] at h; simp at h; subst h; exact ih h2
      · rw [h2] at h; simp at h

/-- The same of a read of `BLKSTART`. -/
theorem readBlkStart_error {i s e} (h : readBlkStart i s = .error e) : ∃ f, e = .fault f := by
  unfold readBlkStart at h
  split at h <;> simp at h; exact ⟨_, h.symm⟩

/-- The same of a read of a block's content. -/
theorem blockBytes_error {i s e} (h : blockBytes i s = .error e) : ∃ f, e = .fault f := by
  unfold blockBytes at h
  rcases h1 : readBlkStart i s with e1 | b
  · rw [h1] at h; simp at h; subst h; exact readBlkStart_error h1
  rw [h1] at h; simp only [ok_bind] at h
  rcases h2 : blkEnd i s with e1 | b'
  · rw [h2] at h; simp at h; subst h
    unfold blkEnd at h2; split at h2
    · exact readBlkStart_error h2
    · simp at h2
  rw [h2] at h; simp only [ok_bind] at h
  exact memReadList_error h

/-! ## The framer -/

/-- Everything `Break()` can do (R135, R136). -/
theorem breakBlock_cases (s : State) :
    (breakBlock s = .error (.raise .capacity) ∧ (s.blkCnt.toNat = 127 ∨
        s.rawLen.toNat + 1 + padNeeded (s.curLen.toNat + 1) + 4 > 26670)) ∨
    (s.blkCnt.toNat ≠ 127 ∧ s.rawLen.toNat + 1 + padNeeded (s.curLen.toNat + 1) + 4 ≤ 26670 ∧ breakBlock s =
        .ok (broken s)) := by
  by_cases h1 : s.blkCnt.toNat = Config.maxBlocks
  · exact .inl ⟨breakBlock_blocks h1, .inl h1⟩
  by_cases h2 : s.rawLen.toNat + 1 + padNeeded (s.curLen.toNat + 1) + Config.pdbHdrLen > Config.rawCap
  · exact .inl ⟨breakBlock_raw h1 h2, .inr h2⟩
  · exact .inr ⟨h1, not_lt.1 h2, breakBlock_ok h1 (not_lt.1 h2)⟩

/-- Reading after a break. -/
theorem read_broken (s : State) (h : s.rawLen.toNat + 1 + padNeeded (s.curLen.toNat + 1) + 4 ≤ 26670) (a : Nat) :
    Memory.read (broken s).doc a =
   if s.rawLen.toNat ≤ a ∧ a < s.rawLen.toNat + (1 + padNeeded (s.curLen.toNat + 1) + 4)
       then (List.replicate (1 + padNeeded (s.curLen.toNat + 1)) 0xFE ++ [s.params.pdbMarker, s.params.pdbTag,
       0x00, 0x00])[a - s.rawLen.toNat]?
        else Memory.read s.doc a := by
  have hp := padNeeded_le (s.curLen.toNat + 1)
  unfold broken
  simp only
  rw [read_appended]
  show (if (appended (List.replicate (1 + padNeeded (s.curLen.toNat + 1)) Config.sentinel) s).rawLen.toNat ≤ a ∧
      _ then _ else Memory.read (appended (List.replicate (1 + padNeeded (s.curLen.toNat + 1)) Config.sentinel) s).doc a) = _
  rw [read_appended]
  have e : (appended (List.replicate (1 + padNeeded (s.curLen.toNat + 1)) Config.sentinel) s).rawLen.toNat =
      s.rawLen.toNat + (1 + padNeeded (s.curLen.toNat + 1)) := by
    simp [appended, BitVec.toNat_add, BitVec.toNat_ofNat]; omega
  have hl : (pdbHeader s.params).length = 4 := rfl
  simp only [e, hl, List.length_replicate]
  show _ = if _ then (List.replicate (1 + padNeeded (s.curLen.toNat + 1)) Config.sentinel ++ pdbHeader s.params)[a - s.rawLen.toNat]? else _
  by_cases h1 : a < s.rawLen.toNat
  · rw [if_neg (by omega), if_neg (by omega), if_neg (by omega)]
  by_cases h2 : a < s.rawLen.toNat + (1 + padNeeded (s.curLen.toNat + 1))
  · rw [if_neg (by omega), if_pos (by omega), if_pos (by omega), List.getElem?_append_left (by simp; omega)]
  by_cases h3 : a < s.rawLen.toNat + (1 + padNeeded (s.curLen.toNat + 1) + 4)
  · rw [if_pos (by omega), if_pos (by omega), List.getElem?_append_right (by simp; omega)]
    congr 1; simp; omega
  · rw [if_neg (by omega), if_neg (by omega), if_neg (by omega)]

/-- `RAWLEN` after a break. -/
theorem broken_rawLen (s : State) : (broken s).rawLen =
    s.rawLen + BitVec.ofNat 15 (1 + padNeeded (s.curLen.toNat + 1) + 4) := by
  apply BitVec.eq_of_toNat_eq
  simp [broken, appended, pdbHeader, BitVec.toNat_add]; omega

/-- The state after a break, field by field. -/
theorem broken_eq (s : State) : broken s = { s with
        doc := (broken s).doc
        rawLen := s.rawLen + BitVec.ofNat 15 (1 + padNeeded (s.curLen.toNat + 1) + 4)
        blkStart := s.blkStart.setIfInBounds s.blkCnt.toNat (s.rawLen + BitVec.ofNat 15 (1 + padNeeded (s.curLen.toNat + 1)))
        blkCnt := s.blkCnt + 1, curLen := 4 } := by
  rw [← broken_rawLen]; simp [broken, appended, pdbHeader]

/-- A break keeps the canonical form. -/
theorem wf_broken {s : State} (h : s.rawLen.toNat + 1 + padNeeded (s.curLen.toNat + 1) + 4 ≤ 26670)
    (hw : Memory.wf s.doc = true) : Memory.wf (broken s).doc = true := by
  have e : (appended (List.replicate (1 + padNeeded (s.curLen.toNat + 1)) Config.sentinel) s).rawLen.toNat =
      _ := appended_rawLen_toNat (by simp [Config.rawCap]; omega)
  simp only [List.length_replicate] at e
  apply wf_appended
  · simp only; rw [e]; simp [pdbHeader, Config.rawCap]; omega
  · apply wf_appended _ hw; simp [Config.rawCap]; omega

/-- After a break, every byte below the new `RAWLEN` holds a value. -/
theorem filled_broken {s : State} (h : s.rawLen.toNat + 1 + padNeeded (s.curLen.toNat + 1) + 4 ≤ 26670)
    (hw : ∀ a, a < s.rawLen.toNat → (Memory.read s.doc a).isSome = true) : ∀ a,
    a < s.rawLen.toNat + (1 + padNeeded (s.curLen.toNat + 1) + 4) → (Memory.read (broken s).doc a).isSome = true := by
  intro a ha
  rw [read_broken s h]
  split_ifs with h1
  · rw [List.getElem?_eq_getElem (by simp; omega)]; rfl
  · exact hw a (by omega)

/-- The FCB has 40 bytes (R59). -/
theorem fcbBytes_length (p : BuiltParams) : (fcbBytes p).length = 40 := by simp [fcbBytes]

/-- The state in which TX_OPEN breaks block 0 (R137). -/
def opened (s : State) : State :=
  appended (fcbBytes s.params) { clearSession s with blkCnt := 1, blkStart := s.blkStart.setIfInBounds 0 0 }

/-- TX_OPEN always completes (R137). -/
theorem txOpen_eq (s : State) : txOpen s = .ok { broken (opened s) with ctl := .txBuild } := by
  unfold txOpen
  rw [writeBlkStart_ok _ _ (by omega), ok_bind, appendAll_ok, ok_bind]
  · show (breakBlock (opened s) >>= _) = _
    rw [breakBlock_ok]
    · rfl
    · simp [opened, appended, Config.maxBlocks]
    · have := padNeeded_le ((opened s).curLen.toNat + 1)
      simp only [opened, appended, clearSession_rawLen, fcbBytes_length, Config.pdbHdrLen, Config.rawCap] at this ⊢
      simp at this ⊢; omega
  · simp [fcbBytes_length, Config.rawCap]

/-- Everything TX_PUSH can do (R138). -/
theorem txPush_cases (b : Byte) (s : State) :
    (s.rawLen.toNat = 26670 ∧ txPush b s = .error (.raise .capacity)) ∨
    (s.rawLen.toNat < 26670 ∧ txPush b s = .ok (appended [b] s)) ∨
    (26670 < s.rawLen.toNat ∧ ∃ f, txPush b s = .error (.fault f)) := by
  rcases lt_trichotomy s.rawLen.toNat 26670 with h | h | h
  · refine .inr (.inl ⟨h, ?_⟩)
    rw [txPush, if_neg (by simp only [Config.rawCap]; omega), append_ok b h]
  · exact .inl ⟨h, by simp [txPush, h, Config.rawCap]⟩
  · refine .inr (.inr ⟨h, .docAddress s.rawLen.toNat, ?_⟩)
    rw [txPush, if_neg (by simp only [Config.rawCap]; omega), append_fault b (by simp only [Config.rawCap]; omega)]

/-- Everything TX_EMIT_END can do (R139). -/
theorem txEmitEnd_cases (s : State) :
    (s.curLen.toNat < 210 ∧ txEmitEnd s = .ok s) ∨
    (210 ≤ s.curLen.toNat ∧ txEmitEnd s = breakBlock s) := by
  by_cases h : 210 ≤ s.curLen.toNat
  · exact .inr ⟨h, if_pos h⟩
  · exact .inl ⟨by omega, if_neg h⟩

/-- Everything TX_CLOSE can do (R140). -/
theorem txClose_cases (s : State) :
    (s.rawLen.toNat = 26670 ∧ txClose s = .error (.raise .capacity)) ∨
    (s.rawLen.toNat < 26670 ∧ txClose s = .ok { appended [0xFE] s with sendIdx := 0, ctl := .txClosed }) ∨
    (26670 < s.rawLen.toNat ∧ ∃ f, txClose s = .error (.fault f)) := by
  rcases lt_trichotomy s.rawLen.toNat 26670 with h | h | h
  · refine .inr (.inl ⟨h, ?_⟩)
    have : closeSentinel s = .ok (appended [0xFE] s) := by
      rw [closeSentinel, if_pos (show Config.finalSentinel = true from rfl),
          if_neg (by simp only [Config.rawCap]; omega)]; exact append_ok _ h
    rw [txClose, this]; rfl
  · refine .inl ⟨h, ?_⟩
    have : closeSentinel s = .error (.raise .capacity) := by
      rw [closeSentinel, if_pos (show Config.finalSentinel = true from rfl), if_pos (show s.rawLen.toNat =
          Config.rawCap from h)]
    rw [txClose, this]; rfl
  · refine .inr (.inr ⟨h, .docAddress s.rawLen.toNat, ?_⟩)
    have : closeSentinel s = .error (.fault (.docAddress s.rawLen.toNat)) := by
      rw [closeSentinel, if_pos (show Config.finalSentinel = true from rfl),
          if_neg (by simp only [Config.rawCap]; omega), append_fault _ (by simp only [Config.rawCap]; omega)]
    rw [txClose, this]; rfl

/-- The state after TX_SEND emitted a block with these raw bytes (R141). -/
def sent (raw : List Byte) (s : State) : State :=
  { s with
      out := s.out ++ sysexMessage s.params s.sendIdx raw, sendIdx := s.sendIdx + 1,
      ctl := if s.sendIdx + 1 = s.blkCnt then .txSent else s.ctl }

/-- Everything TX_SEND can do (R141). -/
theorem txSend_cases (s : State) :
    (∃ raw, blockBytes s.sendIdx.toNat s = .ok raw ∧ txSend s = .ok (sent raw s)) ∨
    (∃ f, txSend s = .error (.fault f)) := by
  unfold txSend
  rcases h : blockBytes s.sendIdx.toNat s with e | raw
  · obtain ⟨f, rfl⟩ := blockBytes_error h
    exact .inr ⟨f, rfl⟩
  · exact .inl ⟨raw, rfl, rfl⟩

/-! ## The receiver -/

/-- RX_BYTE between messages (R172). -/
theorem rxWaitF0_eq (b s) : rxWaitF0 b s = if b = 0xF0 then .ok { s with rxSub := .hdrMfr }
    else .error (.raise .format) := by
  have : Config.sox = 0xF0 := rfl
  unfold rxWaitF0; rw [this]; by_cases h : b = 0xF0
  · rw [if_pos h, if_neg (by simp [h])]
  · rw [if_neg h, if_pos h]

/-- RX_BYTE at an ID byte (R173). -/
theorem rxHeaderId_eq (e a b s) : rxHeaderId e a b s = if b = e then .ok { s with rxSub := a }
    else .error (.raise .format) := by
  unfold rxHeaderId; by_cases h : b = e <;> simp [h]

/-- RX_BYTE at the block index (R174). -/
theorem rxHeaderIdx_eq (b s) : rxHeaderIdx b s = if 0x80 ≤ b.toNat then .error (.raise .format)
    else if b.toNat ≠ s.blkCnt.toNat then .error (.raise .sequence) else if s.blkCnt.toNat = 127
    then .error (.raise .capacity) else .ok { s with
    msgStart := s.rawLen
    curLen := 0, rxSum := 0, rxHold := 0x00, holdV := false, rxMask := 0x00, rxIdx := 0
    rxSub := .body } := by
  have : Config.maxBlocks = 127 := rfl
  unfold rxHeaderIdx; rw [this]; by_cases h : 0x80 ≤ b.toNat
  · rw [if_pos h, if_pos ((isHigh_eq_true b).2 h)]
  · rw [if_neg h, if_neg (by rw [isHigh_eq_true]; exact h)]

/-- The state after the first payload byte was held (R175). -/
def heldFirst (b : Byte) (s : State) : State := { s with rxHold := b, holdV := true }

/-- Everything the acceptance of a held byte can do (R175). -/
theorem rxAccept_cases (h : Byte) (s : State) :
    (s.rxIdx = 0 ∧ rxAccept h s = .ok { s with
        rxSum := BitVec.ofNat 7 ((s.rxSum.toNat + h.toNat) % 128),
        rxMask := h, rxIdx := 1 }) ∨
    (s.rxIdx ≠ 0 ∧ s.rawLen.toNat = 26670 ∧ rxAccept h s = .error (.raise .capacity)) ∨
    (s.rxIdx ≠ 0 ∧ s.rawLen.toNat < 26670 ∧ rxAccept h s =
        .ok (appended [restoreBit7 s.rxMask (s.rxIdx.toNat - 1) h] { s with
          rxSum := BitVec.ofNat 7 ((s.rxSum.toNat + h.toNat) % 128)
          rxIdx := if s.rxIdx = 7 then 0 else s.rxIdx + 1 })) ∨
    (s.rxIdx ≠ 0 ∧ 26670 < s.rawLen.toNat ∧ ∃ f, rxAccept h s = .error (.fault f)) := by
  unfold rxAccept unpackStep
  by_cases h0 : s.rxIdx = 0
  · left; simp [h0]
  · simp only [h0, ne_eq, not_false_eq_true, true_and, false_and, false_or, Config.rawCap, if_false]
    rcases lt_trichotomy s.rawLen.toNat 26670 with h1 | h1 | h1
    · right; left
      refine ⟨h1, ?_⟩
      rw [if_neg (by omega)]
      exact append_ok _ h1
    · left; simp [h1]
    · right; right
      refine ⟨h1, .docAddress s.rawLen.toNat, ?_⟩
      rw [if_neg (by omega)]
      exact append_fault _ (by simp only [Config.rawCap]; omega)

/-- Everything RX_BYTE can do in a message body (R175 to R177). -/
theorem rxBody_cases (b : Byte) (s : State) :
    (b.toNat < 0x80 ∧ s.holdV = false ∧ rxBody b s = .ok (heldFirst b s)) ∨
    (b.toNat < 0x80 ∧ s.holdV = true ∧ s.rxIdx = 0 ∧ rxBody b s =
        .ok { s with
        rxSum := BitVec.ofNat 7 ((s.rxSum.toNat + s.rxHold.toNat) % 128), rxMask := s.rxHold,
        rxIdx := 1, rxHold := b }) ∨
    (b.toNat < 0x80 ∧ s.holdV = true ∧ s.rxIdx ≠ 0 ∧ s.rawLen.toNat = 26670 ∧ rxBody b s =
        .error (.raise .capacity)) ∨
    (b.toNat < 0x80 ∧ s.holdV = true ∧ s.rxIdx ≠ 0 ∧ s.rawLen.toNat < 26670 ∧ rxBody b s =
        .ok ({ appended [restoreBit7 s.rxMask (s.rxIdx.toNat - 1) s.rxHold] s with
          rxSum := BitVec.ofNat 7 ((s.rxSum.toNat + s.rxHold.toNat) % 128)
          rxIdx := if s.rxIdx = 7 then 0 else s.rxIdx + 1, rxHold := b })) ∨
    (b.toNat < 0x80 ∧ s.holdV = true ∧ s.rxIdx ≠ 0 ∧ 26670 < s.rawLen.toNat ∧ ∃ f, rxBody b s = .error (.fault f)) ∨
    (b = 0xF7 ∧ s.holdV = false ∧ rxBody b s = .error (.raise .format)) ∨
    (b = 0xF7 ∧ s.holdV = true ∧ s.rxSum.toNat ≠ s.rxHold.toNat ∧ rxBody b s = .error (.raise .checksum)) ∨
    (b = 0xF7 ∧ s.holdV = true ∧ s.rxSum.toNat = s.rxHold.toNat ∧ s.blkCnt.toNat < 127 ∧ rxBody b s =
        .ok { s with
        blkStart := s.blkStart.setIfInBounds s.blkCnt.toNat s.msgStart, blkCnt := s.blkCnt + 1,
        holdV := false, rxHold := 0, rxSub := .waitF0 }) ∨
    (b = 0xF7 ∧ s.holdV = true ∧ s.rxSum.toNat = s.rxHold.toNat ∧ s.blkCnt.toNat = 127 ∧ ∃ f, rxBody b s =
        .error (.fault f)) ∨
    (0x80 ≤ b.toNat ∧ b ≠ 0xF7 ∧ rxBody b s = .error (.raise .format)) := by
  by_cases hb : b.toNat < 0x80
  · have e : rxBody b s = rxBodyData b s := by rw [rxBody, if_pos ((isHigh_eq_false b).2 hb)]
    rw [e]
    rcases hv : s.holdV
    · left; exact ⟨hb, rfl, by simp [rxBodyData, hv, heldFirst]⟩
    · have e2 : rxBodyData b s = (rxAccept s.rxHold s >>= fun t => .ok { t with rxHold := b, holdV := true }) := by
        simp [rxBodyData, hv]
      rw [e2]
      rcases rxAccept_cases s.rxHold s with ⟨h0, h⟩ | ⟨h0, h1, h⟩ | ⟨h0, h1, h⟩ | ⟨h0, h1, f, h⟩ <;> rw [h]
      · right; left; refine ⟨hb, rfl, h0, ?_⟩; simp [hv]
      · right; right; left; exact ⟨hb, rfl, h0, h1, rfl⟩
      · right; right; right; left; refine ⟨hb, rfl, h0, h1, ?_⟩; simp [hv, appended]
      · right; right; right; right; left; exact ⟨hb, rfl, h0, h1, f, rfl⟩
  · have hh : isHigh b = true := (isHigh_eq_true b).2 (by omega)
    by_cases hb7 : b = 0xF7
    · have e : rxBody b s = rxBodyEnd s := by rw [rxBody, if_neg (by simp [hh]), if_pos (show b =
        Config.eox from hb7)]
      rw [e]
      iterate 5 right
      rcases hv : s.holdV
      · left; exact ⟨hb7, rfl, by simp [rxBodyEnd, hv]⟩
      · right
        by_cases hs : s.rxSum.toNat = s.rxHold.toNat
        · right
          have hs' : ¬ (s.rxSum.setWidth 8 ≠ s.rxHold) := by rw [rxSum_ne_iff]; simpa using hs
          by_cases hc : s.blkCnt.toNat < 127
          · left; refine ⟨hb7, rfl, hs, hc, ?_⟩
            rw [rxBodyEnd, if_neg (by simp [hv]), if_neg hs', writeBlkStart_ok _ _ hc]; rfl
          · right; left; refine ⟨hb7, rfl, hs, by omega, .blkStartIndex s.blkCnt.toNat, ?_⟩
            rw [rxBodyEnd, if_neg (by simp [hv]), if_neg hs']; simp [writeBlkStart, hc]
        · left; refine ⟨hb7, rfl, hs, ?_⟩
          rw [rxBodyEnd, if_neg (by simp [hv]), if_pos ((rxSum_ne_iff _ _).2 hs)]
    · iterate 9 right
      exact ⟨by omega, hb7, by rw [rxBody, if_neg (by simp [hh]), if_neg (show ¬ b = Config.eox from hb7)]⟩

/-- In a message body RX_BYTE is its body case (R171). -/
theorem rxByte_body (b s) (h : s.rxSub = .body) : rxByte b s = rxBody b s := by rw [rxByte, h]

/-- RX_END in one equation (R178). -/
theorem rxEnd_eq (s : State) : rxEnd s = if s.rxSub ≠ .waitF0 ∨ s.blkCnt = 0 then .error (.raise .format)
    else .ok { s with rdPtr := 0, ctl := .rxDone } := by
  unfold rxEnd
  by_cases h1 : s.rxSub = .waitF0 <;> by_cases h2 : s.blkCnt = 0 <;> simp [h1, h2]

/-- Everything RD_BYTE can do (R179). -/
theorem rdByte_cases (s : State) :
    (s.rdPtr.toNat < s.rawLen.toNat ∧ ∃ v, s.rdPtr.toNat < 26670 ∧ Memory.read s.doc s.rdPtr.toNat = some v ∧
        rdByte s = .ok { s with rdData := v, rdValid := true, rdPtr := s.rdPtr + 1 }) ∨
    (s.rawLen.toNat ≤ s.rdPtr.toNat ∧ rdByte s = .ok { s with rdData := 0, rdValid := false}) ∨
    (∃ f, rdByte s = .error (.fault f)) := by
  unfold rdByte
  split_ifs with h
  · rcases h1 : memRead s.rdPtr.toNat s with e | b
    · obtain ⟨f, rfl⟩ := memRead_error h1
      exact .inr (.inr ⟨f, rfl⟩)
    · unfold memRead at h1
      split_ifs at h1 with h2
      split at h1 <;> simp at h1
      subst h1
      rename_i h3
      exact .inl ⟨h, _, h2, h3, rfl⟩
  · exact .inr (.inl ⟨by omega, rfl⟩)

/-- Everything RD_SKIP_BREAK can do (R180). -/
theorem rdSkipBreak_cases (s : State) :
    (s.rdPtr.toNat < s.rawLen.toNat ∧ ∃ v, s.rdPtr.toNat < 26670 ∧ Memory.read s.doc s.rdPtr.toNat = some v ∧
        rdSkipBreak s = .ok { s with
        rdPtr := BitVec.ofNat 15 (min (s.rdPtr.toNat + (if v = 0xFE then 1
        else 0) + 4) s.rawLen.toNat) }) ∨
    (s.rawLen.toNat ≤ s.rdPtr.toNat ∧ rdSkipBreak s = .ok { s with rdPtr := s.rawLen}) ∨
    (∃ f, rdSkipBreak s = .error (.fault f)) := by
  unfold rdSkipBreak skipSentinel
  split_ifs with h
  · rcases h1 : memRead s.rdPtr.toNat s with e | b
    · obtain ⟨f, rfl⟩ := memRead_error h1
      exact .inr (.inr ⟨f, rfl⟩)
    · unfold memRead at h1
      split_ifs at h1 with h2
      split at h1 <;> simp at h1
      subst h1
      rename_i h3
      exact .inl ⟨h, _, h2, h3, rfl⟩
  · refine .inr (.inl ⟨by omega, ?_⟩)
    simp only [ok_bind, pure_eq_ok]
    have : min (s.rdPtr.toNat + 0 + Config.pdbHdrLen) s.rawLen.toNat = s.rawLen.toNat := by
      simp only [Config.pdbHdrLen]; omega
    rw [this]; simp

/-! ## The standalone packer -/

/-- What `PkEmit` leaves (R108). -/
theorem pkEmit_fields (n s) : (pkEmit n s).pkCnt = 0 ∧ (pkEmit n s).pkMask = 0 ∧ (pkEmit n s).pkFep = s.pkFep ∧
    (pkEmit n s).pkStop = s.pkStop := by
  unfold pkEmit; split_ifs <;> exact ⟨rfl, rfl, rfl, rfl⟩

/-- `PkAdd` does not touch `PKSTOP` (R108). -/
theorem pkAdd_stop (b s) : (pkAdd b s).pkStop = s.pkStop := by
  unfold pkAdd
  by_cases h1 : s.pkCnt.val + 1 < 7
  · rw [dif_pos h1]
  · rw [dif_neg h1, (pkEmit_fields _ _).2.2.2]

/-- A mask with bits below `k` only, with bit `k` set or not. -/
theorem groupMask_lt (m : BitVec 7) (k : Nat) (h : m.toNat < 2 ^ k) (b : Bool) : (if b
    then m ||| (1#7 <<< k) else m).toNat < 2 ^ (k+1) := by
  rcases b
  · simp; exact lt_of_lt_of_le h (Nat.pow_le_pow_right (by omega) (by omega))
  · simp only [if_true, BitVec.toNat_or]
    apply Nat.or_lt_two_pow
    · exact lt_of_lt_of_le h (Nat.pow_le_pow_right (by omega) (by omega))
    · simp [BitVec.toNat_shiftLeft, Nat.shiftLeft_eq]
      exact lt_of_le_of_lt (Nat.mod_le _ _) (Nat.pow_lt_pow_right (by omega) (by omega))

/-- `PkAdd` keeps the mask within the open group (R108). -/
theorem pkAdd_mask (b s) (hm : s.pkMask.toNat < 2 ^ s.pkCnt.val) :
    (pkAdd b s).pkMask.toNat < 2 ^ (pkAdd b s).pkCnt.val := by
  unfold pkAdd
  by_cases h1 : s.pkCnt.val + 1 < 7
  · rw [dif_pos h1]; exact groupMask_lt _ _ hm _
  · rw [dif_neg h1, (pkEmit_fields _ _).1, (pkEmit_fields _ _).2.1]; exact Nat.one_pos

/-- PK_PUSH writes the packer and OUT only (R109). -/
theorem pkPush_frame (b s) : (pkPush b s) = { s with
    pkGrp := (pkPush b s).pkGrp, pkCnt := (pkPush b s).pkCnt,
    pkMask := (pkPush b s).pkMask, pkFep := (pkPush b s).pkFep, pkStop := (pkPush b s).pkStop,
    out := (pkPush b s).out} := by
  simp only [pkPush, pkAdd, pkEmit]; split_ifs <;> simp [emit]

/-- The bytes one PK_PUSH emits: 8 where it completes a group (R108, R261), the open group with its mask byte where it confirms a
terminator (R109, assumption log 14), else none (R261). -/
theorem pkPush_out_length (b : Byte) (s : State) : (pkPush b s).out.length = s.out.length +
    (if s.pkStop then 0
     else if s.pkFep ∧ b ≠ Config.sentinel then if s.pkCnt.val = 0 then 0 else s.pkCnt.val + 1
     else if s.pkCnt.val = 6 then 8 else 0) := by
  have hc := s.pkCnt.isLt
  have add (t : State) : (pkAdd b t).out.length = t.out.length + if t.pkCnt.val = 6 then 8 else 0 := by
    unfold pkAdd pkEmit
    split_ifs <;> simp [emit] <;> omega
  unfold pkPush pkEmit
  split_ifs <;> simp_all [emit]

/-- PK_FLUSH writes the packer and OUT only (R110). -/
theorem pkFlush_frame (s) : (pkFlush s) = { s with
    pkGrp := (pkFlush s).pkGrp, pkCnt := (pkFlush s).pkCnt,
    pkMask := (pkFlush s).pkMask, pkFep := (pkFlush s).pkFep, pkStop := (pkFlush s).pkStop,
    out := (pkFlush s).out} := by
  simp only [pkFlush, pkEmit]; split_ifs <;> simp [emit]

/-! ## Bodies of the session commands -/

/-- The body of a session command; a global command has none. -/
def sessionBody : Instr → State → Attempt
  | .txPush b => txPush b
  | .txEmitEnd _ => txEmitEnd
  | .txClose _ => txClose
  | .txSend _ => txSend
  | .rxByte b => rxByte b
  | .rxEnd _ => rxEnd
  | .rdByte _ => rdByte
  | .rdSkipBreak _ => rdSkipBreak
  | _ => .ok

/-- A session command is its body under the order of checks (R215). -/
theorem exec_session {i c} (h : legalIn i = some c) (s) : exec i s = runSession c (encode i) s (sessionBody i) := by
  cases i <;> simp [legalIn] at h <;> subst h <;> rfl

/-- TX_OPEN as a command: it always completes (R137). -/
theorem exec_txOpen (imm : Byte) (s : State) :
    exec (.txOpen imm) s = .next { broken (opened s) with ctl := .txBuild } := by
  simp [exec, execTxOpen, txOpen_eq, finish]

/-- No session command is legal in `ERR` (R212). -/
theorem legalIn_ne_err {i c} (h : legalIn i = some c) : c ≠ .err := by
  cases i <;> simp [legalIn] at h <;> subst h <;> simp

/-! ## The invariants -/

/-- The words issued are no part of the invariants. -/
theorem Invariants.withPort {s : State} (h : Invariants s) (ws : List Word) : Invariants { s with cmdPort := ws } :=
  ⟨h.docWf, h.docFilled, h.rawLenCap, h.sendIdxLe, h.rdPtrLe, h.blkStartZero, h.blkStartOrder, h.blkStartLe, h.pkStopEmpty,
    h.pkMaskBits, h.errCodeIff, h.errCmdZero, h.idleEmpty, h.encodeBlocks, h.encodeSizes, h.sendPosition, h.decodeSendIdx,
    h.betweenMessages, h.inBody, h.readPortOpen⟩

end Sys2Proof.Machine
end

