-- ==== Sys2Proof/Laws/Params.lean ====
section
/-! SUPPORT. What the parameters of a machine meet (R7), and when a parameter set makes a machine (R252). -/

namespace Sys2Proof

theorem Params.wellFormed_iff (p : Params) : p.wellFormed = true ↔
    p.mfrId.toNat < 0x80 ∧ p.funcId.toNat < 0x80 ∧ p.typeId.toNat < 0x80 ∧ p.pdbMarker ≠ 0xFE ∧ p.pdbTag ≠ 0xFE ∧
    ∀ b ∈ p.fcbTemplate.toList, b ≠ 0xFE := by
  simp only [wellFormed, idsWellFormed, headerWellFormed, templateWellFormed, Config.sentinel, BitVec.lt_def,
    Bool.and_eq_true, decide_eq_true_eq, bne_iff_ne, List.all_eq_true, and_assoc]
  rfl

theorem BuiltParams.mfrId_lt (p : BuiltParams) : p.mfrId.toNat < 0x80 :=
  (p.toParams.wellFormed_iff.mp p.constrained).1

theorem BuiltParams.funcId_lt (p : BuiltParams) : p.funcId.toNat < 0x80 :=
  (p.toParams.wellFormed_iff.mp p.constrained).2.1

theorem BuiltParams.typeId_lt (p : BuiltParams) : p.typeId.toNat < 0x80 :=
  (p.toParams.wellFormed_iff.mp p.constrained).2.2.1

theorem BuiltParams.pdbMarker_ne (p : BuiltParams) : p.pdbMarker ≠ 0xFE :=
  (p.toParams.wellFormed_iff.mp p.constrained).2.2.2.1

theorem BuiltParams.pdbTag_ne (p : BuiltParams) : p.pdbTag ≠ 0xFE :=
  (p.toParams.wellFormed_iff.mp p.constrained).2.2.2.2.1

theorem BuiltParams.fcbTemplate_ne (p : BuiltParams) {b : Byte} (hb : b ∈ p.fcbTemplate.toList) : b ≠ 0xFE :=
  (p.toParams.wellFormed_iff.mp p.constrained).2.2.2.2.2 b hb

/-- Construction gives the machine of exactly the set it is handed. -/
theorem BuiltParams.build_ok {p : Params} {b : BuiltParams} : BuiltParams.build p = .ok b ↔ b.toParams = p := by
  unfold build
  split
  · constructor
    · rintro ⟨⟩; rfl
    · rintro rfl; rfl
  · rename_i h
    constructor
    · split_ifs <;> rintro ⟨⟩
    · rintro rfl; exact absurd b.constrained h

end Sys2Proof
end

