-- ==== Sys2Proof/Laws/PerInstr.lean ====
section
/-! SUPPORT. The family EncodeFields: in the word of every command, the opcode field holds the command's opcode in the map of
R72 and the operand field its `IMM` (R70). One lemma per constructor. -/

namespace Sys2Proof.Laws.EncodeFields

/-- The two fields of a command's word (R70, R72). -/
def Statement (i : Instr) : Prop := opcOf (encode i) = opcodeOf i ∧ immOf (encode i) = i.imm

theorem nop (imm : Byte) : Statement (.nop imm) := ⟨opcOf_append _ _, immOf_append _ _⟩
theorem reset (imm : Byte) : Statement (.reset imm) := ⟨opcOf_append _ _, immOf_append _ _⟩
theorem txOpen (imm : Byte) : Statement (.txOpen imm) := ⟨opcOf_append _ _, immOf_append _ _⟩
theorem txPush (imm : Byte) : Statement (.txPush imm) := ⟨opcOf_append _ _, immOf_append _ _⟩
theorem txEmitEnd (imm : Byte) : Statement (.txEmitEnd imm) := ⟨opcOf_append _ _, immOf_append _ _⟩
theorem txClose (imm : Byte) : Statement (.txClose imm) := ⟨opcOf_append _ _, immOf_append _ _⟩
theorem txSend (imm : Byte) : Statement (.txSend imm) := ⟨opcOf_append _ _, immOf_append _ _⟩
theorem rxOpen (imm : Byte) : Statement (.rxOpen imm) := ⟨opcOf_append _ _, immOf_append _ _⟩
theorem rxByte (imm : Byte) : Statement (.rxByte imm) := ⟨opcOf_append _ _, immOf_append _ _⟩
theorem rxEnd (imm : Byte) : Statement (.rxEnd imm) := ⟨opcOf_append _ _, immOf_append _ _⟩
theorem rdByte (imm : Byte) : Statement (.rdByte imm) := ⟨opcOf_append _ _, immOf_append _ _⟩
theorem rdSkipBreak (imm : Byte) : Statement (.rdSkipBreak imm) := ⟨opcOf_append _ _, immOf_append _ _⟩
theorem pkPush (imm : Byte) : Statement (.pkPush imm) := ⟨opcOf_append _ _, immOf_append _ _⟩
theorem pkFlush (imm : Byte) : Statement (.pkFlush imm) := ⟨opcOf_append _ _, immOf_append _ _⟩
theorem upPush (imm : Byte) : Statement (.upPush imm) := ⟨opcOf_append _ _, immOf_append _ _⟩
theorem upFlush (imm : Byte) : Statement (.upFlush imm) := ⟨opcOf_append _ _, immOf_append _ _⟩

end Sys2Proof.Laws.EncodeFields
end

