-- ==== Sys2Proof/Machine/Assembler.lean ====
section
/-! DEFINITION. The assembler notation (R84) and the pseudo-instructions (R85). Neither adds an encoding: both give command
words of the opcode map. -/

namespace Sys2Proof.Machine

/-- The pseudo-instructions (R85). -/
inductive Pseudo where
  | txEmit (bs : List Byte)
  | txLast (bs : List Byte)
  | txSendN (n : Nat)
  | rxMsg (bs : List Byte)
  | rdN (n : Nat)
  | pkArray (bs : List Byte)
  | upArray (bs : List Byte)
deriving DecidableEq, Repr

/-- The expansion of a pseudo-instruction, in order (R85). -/
def Pseudo.expand : Pseudo → List Instr
  | .txEmit bs => bs.map Instr.txPush ++ [.txEmitEnd 0x00]
  | .txLast bs => bs.map Instr.txPush ++ [.txClose 0x00]
  | .txSendN n => List.replicate n (.txSend 0x00)
  | .rxMsg bs => bs.map Instr.rxByte
  | .rdN n => List.replicate n (.rdByte 0x00)
  | .pkArray bs => bs.map Instr.pkPush ++ [.pkFlush 0x00]
  | .upArray bs => bs.map Instr.upPush ++ [.upFlush 0x00]

/-- The mnemonics of R72, each with the command it names. -/
def mnemonicTable : List (String × (Byte → Instr)) :=
  [("NOP", .nop), ("RESET", .reset), ("TX_OPEN", .txOpen), ("TX_PUSH", .txPush), ("TX_EMIT_END", .txEmitEnd),
    ("TX_CLOSE", .txClose), ("TX_SEND", .txSend), ("RX_OPEN", .rxOpen), ("RX_BYTE", .rxByte), ("RX_END", .rxEnd),
    ("RD_BYTE", .rdByte), ("RD_SKIP_BREAK", .rdSkipBreak), ("PK_PUSH", .pkPush), ("PK_FLUSH", .pkFlush),
    ("UP_PUSH", .upPush), ("UP_FLUSH", .upFlush)]

/-- Why a line is no command. -/
inductive AsmError where
  /-- The first word is no mnemonic of R72 in upper case. -/
  | unknownMnemonic
  /-- An operand command without its operand, or a command without operand with one (R84). -/
  | operandCount
  /-- The operand is neither `0xNN` nor a decimal 0..255 (R84). -/
  | badOperand
deriving DecidableEq, Repr

/-- A hexadecimal digit; both letter cases are taken (assumption log 12). -/
def hexDigit (c : Char) : Option Nat :=
  if '0' ≤ c ∧ c ≤ '9' then some (c.toNat - '0'.toNat)
  else if 'a' ≤ c ∧ c ≤ 'f' then some (c.toNat - 'a'.toNat + 10)
  else if 'A' ≤ c ∧ c ≤ 'F' then some (c.toNat - 'A'.toNat + 10)
  else none

/-- A decimal digit. -/
def decDigit (c : Char) : Option Nat :=
  if '0' ≤ c ∧ c ≤ '9' then some (c.toNat - '0'.toNat) else none

/-- A decimal number of at least one digit after the value `acc` of the digits before it. -/
def parseDecimal : Nat → List Char → Option Nat
  | _, [] => none
  | acc, [c] => (decDigit c).map (fun d => 10 * acc + d)
  | acc, c :: cs => (decDigit c).bind (fun d => parseDecimal (10 * acc + d) cs)

/-- The operand byte: `0xNN` or a decimal 0..255 (R84). -/
def parseOperand : List Char → Option Byte
  | ['0', 'x', hi, lo] => do
    let h ← hexDigit hi
    let l ← hexDigit lo
    return BitVec.ofNat 8 (16 * h + l)
  | cs => do
    let n ← parseDecimal 0 cs
    if n < 256 then return BitVec.ofNat 8 n else none

/-- The words of a line, parted at spaces and tabs (assumption log 12); `word` holds the open word reversed. -/
def splitWords : List Char → List Char → List (List Char)
  | [], [] => []
  | word, [] => [word.reverse]
  | word, c :: cs =>
    if c = ' ' ∨ c = '\t' then
      if word.isEmpty then splitWords [] cs else word.reverse :: splitWords [] cs
    else splitWords (c :: word) cs

/-- The command of a line's words, `MNEMONIC` or `MNEMONIC operand` (R84). -/
def parseCommand (mnemonic : List Char) (operands : List (List Char)) : Except AsmError Instr :=
  match mnemonicTable.find? (fun row => row.1.toList = mnemonic) with
  | none => .error .unknownMnemonic
  | some (_, make) =>
    match (make 0x00).hasOperand, operands with
    | false, [] => .ok (make 0x00)
    | true, [cs] =>
      match parseOperand cs with
      | some b => .ok (make b)
      | none => .error .badOperand
    | _, _ => .error .operandCount

/-- One line of a program (R84): text from `;` on is a comment, and a line with no word on it is no command. -/
def assembleLine (line : List Char) : Except AsmError (Option Word) :=
  match splitWords [] (line.takeWhile (· ≠ ';')) with
  | [] => .ok none
  | mnemonic :: operands => (parseCommand mnemonic operands).map (fun i => some (encode i))

/-- The command words of a program, one line after the other. -/
def assemble : List (List Char) → Except AsmError (List Word)
  | [] => .ok []
  | line :: lines => do
    let w ← assembleLine line
    let ws ← assemble lines
    return w.toList ++ ws

end Sys2Proof.Machine
end

