-- ==== Sys2Proof/Tests/Slice0.lean ====
section
/-! SUPPORT. Tests of the model against the vectors of 95_test_vectors.md and the examples in the rules, each on one step or one
pure function, and for every statement with hypotheses a concrete state and operands that meet them. -/

namespace Sys2Proof.Tests

open Sys2Proof Sys2Proof.Machine

/-! ## Helpers -/

/-- The example parameters of 95 section 1. -/
def exampleParams : BuiltParams where
  mfrId := 0x11
  funcId := 0x22
  typeId := 0x33
  pdbMarker := 0x44
  pdbTag := 0x55
  fcbTemplate := Vector.ofFn fun j => BitVec.ofNat 8 j.val

/-- The reset state with the example parameters, in a control state. -/
def st (c : Ctl) : State := { State.powerOn exampleParams with ctl := c }

/-- Bytes laid in the document RAM from an address on. -/
def cells : Nat → List Byte → List Host.Cell
  | _, [] => []
  | a, b :: bs => (a, b) :: cells (a + 1) bs

/-- A view of the next state; `none` at a fault or a refusal. -/
def after {α : Type} (view : State → α) : Result → Option α
  | .next t => some (view t)
  | .fault _ => none
  | .refused _ => none

/-- An encode session just opened (95 section 4.1), with only the bytes a test reads in the document RAM. -/
def building : State :=
  { st .txBuild with
    blkCnt := 2, rawLen := 46, curLen := 4
    blkStart := (Vector.replicate 127 0).setIfInBounds 1 42 }

/-- The document of 95 section 4.1, `TX_OPEN TX_CLOSE`, before any message is sent. -/
def closed : State :=
  { st .txClosed with
    blkCnt := 2, rawLen := 47, curLen := 5
    blkStart := (Vector.replicate 127 0).setIfInBounds 1 42
    doc := cells 0 ((List.range 40).map (BitVec.ofNat 8) ++ [0xFE, 0xFE, 0x44, 0x55, 0x00, 0x00, 0xFE]) }

/-- Block 1 of program 2 (95 section 8.2), ready to be sent. -/
def sending : State :=
  { st .txClosed with
    blkCnt := 2, rawLen := 53, curLen := 11, sendIdx := 1
    blkStart := (Vector.replicate 127 0).setIfInBounds 1 42
    doc := cells 42 [0x44, 0x55, 0x00, 0x00, 0x00, 0x90, 0x3C, 0x64, 0x00, 0xFC, 0xFE] }

/-- A decode session inside a message body. -/
def inBody : State := { st .rxActive with rxSub := .body }

/-- A decoded document of 53 bytes with the break of program 3 (95 section 8.3) at 40 to 45. -/
def decoded : State :=
  { st .rxDone with
    blkCnt := 2, rawLen := 53
    doc := cells 40 [0xFE, 0xFE, 0x44, 0x55, 0x00, 0x00, 0x00] }

/-! ## Decoding, words written out from R70 and R72 -/

theorem test_decode_nop : decode 0b00000000_11111111#16 = .ok (.nop 0xFF) := by decide
theorem test_decode_reset : decode 0b00000001_00000000#16 = .ok (.reset 0x00) := by decide
theorem test_decode_txOpen : decode 0b00010000_00000000#16 = .ok (.txOpen 0x00) := by decide
theorem test_decode_txPush : decode 0b00010001_10010000#16 = .ok (.txPush 0x90) := by decide
theorem test_decode_txEmitEnd : decode 0b00010010_00000000#16 = .ok (.txEmitEnd 0x00) := by decide
theorem test_decode_txClose : decode 0b00010011_00000000#16 = .ok (.txClose 0x00) := by decide
theorem test_decode_txSend : decode 0b00010100_00000000#16 = .ok (.txSend 0x00) := by decide
theorem test_decode_rxOpen : decode 0b00100000_00000000#16 = .ok (.rxOpen 0x00) := by decide
theorem test_decode_rxByte : decode 0b00100001_11110111#16 = .ok (.rxByte 0xF7) := by decide
theorem test_decode_rxEnd : decode 0b00100010_00000000#16 = .ok (.rxEnd 0x00) := by decide
theorem test_decode_rdByte : decode 0b00100011_00000000#16 = .ok (.rdByte 0x00) := by decide
theorem test_decode_rdSkipBreak : decode 0b00100100_00000000#16 = .ok (.rdSkipBreak 0x00) := by decide
theorem test_decode_pkPush : decode 0b00110000_00111100#16 = .ok (.pkPush 0x3C) := by decide
theorem test_decode_pkFlush : decode 0b00110001_00000000#16 = .ok (.pkFlush 0x00) := by decide
theorem test_decode_upPush : decode 0b00111000_01010101#16 = .ok (.upPush 0x55) := by decide
theorem test_decode_upFlush : decode 0b00111001_00000000#16 = .ok (.upFlush 0x00) := by decide

/-- R73: the ends of every reserved range. -/
theorem test_decode_reserved :
    [0x02, 0x0F, 0x15, 0x1F, 0x25, 0x2F, 0x32, 0x37, 0x3A, 0xFF].all
      (fun n => decode (BitVec.ofNat 16 (256 * n)) == .error (.reserved (BitVec.ofNat 8 n))) = true := by decide

/-- The table numbers a command's bits as its word does. -/
theorem test_decodeTableWord : decodeTableWord 16 0x1190 = some (.txPush 0x90) ∧ decodeTableWord 16 0x5000 = none := by decide

/-- R84: the two examples of the rule, a comment, and a decimal operand. -/
theorem test_assemble :
    (assemble ["TX_PUSH 0x90".toList, "TX_SEND ; the next block".toList, "; nothing".toList, "RX_BYTE 247".toList]).toOption =
      some [0x1190, 0x1400, 0x21F7] := by decide +kernel

/-- R84: a lower-case mnemonic, a missing operand, an operand too many, and one above 255 are no commands. -/
theorem test_assemble_errors :
    ["tx_send", "TX_PUSH", "NOP 0x00", "TX_PUSH 256"].all (fun l => (assembleLine l.toList).toOption.isNone) = true := by
  decide +kernel

/-- R85: one emission. -/
theorem test_expand : (Pseudo.txEmit [0x90, 0x3C]).expand = [.txPush 0x90, .txPush 0x3C, .txEmitEnd 0x00] := by decide

/-! ## Well-formedness -/

/-- Why a parameter set is refused; `none` where it is not. -/
def refusal (p : Params) : Option ParamRefusal :=
  match BuiltParams.build p with
  | .ok _ => none
  | .error r => some r

/-- R7, R252: construction takes the example parameters, and refuses a set that breaks a constraint. -/
theorem test_params_build :
    refusal exampleParams.toParams = none ∧
    refusal { exampleParams.toParams with mfrId := 0x7F, pdbMarker := 0xFF } = none ∧
    refusal { exampleParams.toParams with mfrId := 0x80 } = some .idByte ∧
    refusal { exampleParams.toParams with funcId := 0x80 } = some .idByte ∧
    refusal { exampleParams.toParams with typeId := 0xFF } = some .idByte ∧
    refusal { exampleParams.toParams with pdbMarker := 0xFE } = some .headerByte ∧
    refusal { exampleParams.toParams with pdbTag := 0xFE } = some .headerByte ∧
    refusal { exampleParams.toParams with fcbTemplate := exampleParams.fcbTemplate.set 39 0xFE } = some .templateByte ∧
    refusal { exampleParams.toParams with fcbTemplate := exampleParams.fcbTemplate.set 0 0xFE } = some .templateByte := by
  decide +kernel

/-- R84: an assembled command without operand has `IMM` 0x00. -/
theorem test_isAssembled :
    (Instr.txSend 0x00).isAssembled = true ∧ (Instr.txSend 0x01).isAssembled = false ∧
    (Instr.txPush 0xFE).isAssembled = true := by decide

/-! ## Packing, the vectors of 95 section 3 -/

theorem test_pack7to8 :
    pack7to8 [0xFE, 0x01] = [0x01, 0x7E] ∧
    pack7to8 [0xFE, 0xFE, 0x01] = [0x03, 0x7E, 0x7E, 0x01] ∧
    pack7to8 [0xFE, 0xFE, 0xFE] = [0x07, 0x7E, 0x7E, 0x7E] ∧
    pack7to8 [0x01, 0xFE, 0xFE, 0xFE, 0x02] = [0x0E, 0x01, 0x7E, 0x7E, 0x7E] ∧
    pack7to8 [0x80, 0x81, 0x82, 0x83, 0x84, 0x85, 0x86, 0x87, 0x7F] =
      [0x7F, 0x00, 0x01, 0x02, 0x03, 0x04, 0x05, 0x06, 0x01, 0x07, 0x7F] ∧
    pack7to8 [0x00, 0x01, 0x02, 0x03, 0x04, 0x05, 0xFE, 0x11] =
      [0x40, 0x00, 0x01, 0x02, 0x03, 0x04, 0x05, 0x7E] := by decide

theorem test_unpack8to7 :
    unpack8to7 [0x55] = [] ∧ unpack8to7 [0x03, 0x7E, 0x7E, 0x01] = [0xFE, 0xFE, 0x01] ∧
    unpack8to7 [0x00, 0x00, 0x00, 0x00, 0x00, 0x00, 0x00, 0x00, 0x7F] = [0, 0, 0, 0, 0, 0, 0] ∧
    unpack8to7 [0xFF, 0xFF, 0x00] = [0xFF, 0x80] ∧ unpack8to7 [0x01, 0x7E, 0x80] = [0xFE, 0x00] := by decide

theorem test_cks : cks [0x55, 0x55] = 0x2A ∧ cks [0x20, 0x44, 0x55, 0x00, 0x00, 0x01, 0x7E] = 0x38 := by decide

theorem test_sizes :
    [0, 1, 6, 7, 8, 42, 212, 217].map packedSize = [0, 2, 7, 8, 10, 48, 243, 248] ∧
    [1, 9, 250].map unpackedSize = [0, 7, 218] := by decide

/-- 95 section 4.2: the padding of a break. -/
theorem test_padNeeded : [7, 6, 211, 212, 41].map padNeeded = [0, 0, 1, 0, 1] := by decide

/-! ## One step of each command -/

/-- 95 section 6: NOP with any `IMM`. -/
theorem test_nop : after (readPort · 0x0) (step { st .idle with cmdPort := [0x00FF] }) = some 0x0000 := by decide +kernel

/-- 95 section 3.4: RESET discards an open group. -/
theorem test_reset : after (fun t => (t.pkCnt, t.out)) (exec (.reset 0) { st .err with pkCnt := 2, out := [0x01] }) =
    some (0, [0x01]) := by decide

/-- 95 section 4.1: TX_OPEN. -/
theorem test_txOpen : after (fun t => ([readPort t 0x0, readPort t 0x1, readPort t 0x2, readPort t 0x3], blkStartAt t 1,
    (List.range 7).map (fun j => Memory.read t.doc (39 + j)))) (exec (.txOpen 0) (st .idle)) =
    some ([0x0001, 2, 46, 4], 42, [some 0x27, some 0xFE, some 0xFE, some 0x44, some 0x55, some 0x00, some 0x00]) := by
  decide +kernel

/-- TX_OPEN runs as the first command after reset, whatever the parameters are. -/
theorem test_txOpen_from_reset : after (fun t => (t.ctl, t.blkCnt)) (step (State.reset.withFetchWord 16 0x1000)) =
    some (.txBuild, 2) := by decide +kernel

/-- R138: its example. -/
theorem test_txPush : after (fun t => (t.rawLen, t.curLen, Memory.read t.doc 46)) (exec (.txPush 0x90) building) =
    some (47, 5, some 0x90) := by decide +kernel

/-- 95 section 4.5: TX_PUSH at a full document. -/
theorem test_txPush_full : after (fun t => (readPort t 0x0, t.errCmd, t.rawLen))
    (exec (.txPush 0x00) { building with rawLen := 26670, curLen := 128, blkCnt := 127 }) =
    some (0x0407, 0x1100, 26670) := by decide +kernel

/-- 95 section 4.3: a break at `CURLEN` = 212 pads. -/
theorem test_txEmitEnd : after (fun t => ([readPort t 0x1, readPort t 0x2, readPort t 0x3], blkStartAt t 2,
    (List.range 6).map (fun j => Memory.read t.doc (254 + j))))
    (exec (.txEmitEnd 0) { building with rawLen := 254, curLen := 212 }) =
    some ([3, 260, 4], 256, [some 0xFE, some 0xFE, some 0x44, some 0x55, some 0x00, some 0x00]) := by decide +kernel

/-- 95 section 4.5: a break that fits exactly, and the block count checked first. -/
theorem test_txEmitEnd_edge :
    after (fun t => (readPort t 0x0, t.rawLen, t.blkCnt)) (exec (.txEmitEnd 0) { building with rawLen := 26665, curLen := 26623 }) =
      some (0x0001, 26670, 3) ∧
    after (fun t => (readPort t 0x0, t.errCmd)) (exec (.txEmitEnd 0) { building with curLen := 210, blkCnt := 127 }) =
      some (0x0407, 0x1200) := by decide +kernel

/-- R140: its example. -/
theorem test_txClose : after (fun t => (readPort t 0x0, t.rawLen, t.curLen, Memory.read t.doc 52))
    (exec (.txClose 0) { building with rawLen := 52, curLen := 10 }) = some (0x0002, 53, 11, some 0xFE) := by decide +kernel

/-- 95 section 8.2: message 1. -/
theorem test_txSend : after (fun t => (t.out, readPort t 0x0, t.sendIdx)) (exec (.txSend 0) sending) =
    some ([0xF0, 0x11, 0x22, 0x33, 0x01, 0x20, 0x44, 0x55, 0x00, 0x00, 0x00, 0x10, 0x3C, 0x0C, 0x64, 0x00, 0x7C, 0x7E,
      0x6F, 0xF7], 0x0003, 2) := by decide +kernel

/-- 95 section 4.6: TX_SEND before the document is closed keeps the document. -/
theorem test_txSend_early : after (fun t => (readPort t 0x0, t.errCmd, t.blkCnt, t.rawLen)) (exec (.txSend 0) building) =
    some (0x0507, 0x1400, 2, 46) := by decide +kernel

/-- 95 section 6: RX_OPEN abandons an encode session. -/
theorem test_rxOpen : after (fun t => (readPort t 0x0, t.blkCnt, t.rawLen)) (exec (.rxOpen 0) building) =
    some (0x0004, 0, 0) := by decide +kernel

/-- R175: its example, `RX_BYTE 0x01` after the payload bytes `03 7E 7E`. -/
theorem test_rxByte_body : after (fun t => (t.rawLen, Memory.read t.doc 1, t.rxHold, t.rxSum))
    (exec (.rxByte 0x01)
      { inBody with holdV := true, rxHold := 0x7E, rxMask := 0x03, rxIdx := 2, rxSum := 1, rawLen := 1, curLen := 1 }) =
    some (2, some 0xFE, 0x01, 0x7F) := by decide +kernel

/-- 95 section 5.1: the index is checked before the capacity. -/
theorem test_rxByte_index :
    after (fun t => (readPort t 0x0, t.errCmd)) (exec (.rxByte 0x7E) { st .rxActive with rxSub := .hdrIdx, blkCnt := 127 }) =
      some (0x0347, 0x217E) ∧
    after (fun t => (readPort t 0x0, t.errCmd)) (exec (.rxByte 0x7F) { st .rxActive with rxSub := .hdrIdx, blkCnt := 127 }) =
      some (0x0447, 0x217F) := by decide +kernel

/-- 95 section 5.1: RX_END alone, and inside a header. -/
theorem test_rxEnd :
    after (fun t => (readPort t 0x0, t.errCmd)) (exec (.rxEnd 0) (st .rxActive)) = some (0x0107, 0x2200) ∧
    after (fun t => (readPort t 0x0, t.errCmd)) (exec (.rxEnd 0) { st .rxActive with rxSub := .hdrIdx }) =
      some (0x0147, 0x2200) := by decide +kernel

/-- 95 section 5.4: RD_BYTE at a byte, and at the end. -/
theorem test_rdByte :
    after (fun t => (t.rdData, t.rdPtr, readPort t 0x0))
      (exec (.rdByte 0) { st .rxDone with rawLen := 1, blkCnt := 1, doc := [(0, 0x10)] }) = some (0x10, 1, 0x0805) ∧
    after (fun t => (t.rdData, t.rdPtr, readPort t 0x0))
      (exec (.rdByte 0) { st .rxDone with rawLen := 1, blkCnt := 1, rdPtr := 1, rdValid := true, rdData := 0x10 }) =
      some (0x00, 1, 0x0005) := by decide +kernel

/-- 95 section 5.4: RD_SKIP_BREAK after the first sentinel, after the padding, and at the end. -/
theorem test_rdSkipBreak :
    after (·.rdPtr) (exec (.rdSkipBreak 0) { decoded with rdPtr := 41 }) = some 46 ∧
    after (·.rdPtr) (exec (.rdSkipBreak 0) { decoded with rdPtr := 42 }) = some 46 ∧
    after (·.rdPtr) (exec (.rdSkipBreak 0) { decoded with rdPtr := 53 }) = some 53 := by decide +kernel

/-- 95 section 3.4: the seventh byte closes the group. -/
theorem test_pkPush : after (fun t => (t.out, readPort t 0x0))
    (exec (.pkPush 0xFE) { st .idle with pkCnt := 6, pkGrp := #v[0, 1, 2, 3, 4, 5, 0] }) =
    some ([0x40, 0x00, 0x01, 0x02, 0x03, 0x04, 0x05, 0x7E], 0x1000) := by decide +kernel

/-- 95 section 3.4: the byte after an unpaired sentinel stops the packer and is dropped. -/
theorem test_pkPush_stop : after (fun t => (t.out, readPort t 0x0)) (exec (.pkPush 0x11) { st .idle with pkFep := true }) =
    some ([], 0x2000) := by decide +kernel

/-- 95 section 3.4: a short group. -/
theorem test_pkFlush : after (fun t => (t.out, t.pkCnt))
    (exec (.pkFlush 0) { st .err with pkCnt := 2, pkMask := 0x01, pkGrp := #v[0x90, 0x3C, 0, 0, 0, 0, 0] }) =
    some ([0x01, 0x10, 0x3C], 0) := by decide +kernel

/-- 95 section 3.5: the second data byte under the mask 0x03, and a mask byte. -/
theorem test_upPush :
    after (fun t => (t.out, t.upIdx)) (exec (.upPush 0x7E) { st .idle with upMask := 0x03, upIdx := 2 }) = some ([0xFE], 3) ∧
    after (fun t => (t.out, t.upMask, t.upIdx)) (exec (.upPush 0x55) (st .idle)) = some ([], 0x55, 1) := by decide +kernel

/-- 95 section 3.5: a lone mask byte leaves no trace. -/
theorem test_upFlush : after (fun t => (t.out, t.upMask, t.upIdx)) (exec (.upFlush 0) { st .idle with upMask := 0x55, upIdx := 1 }) =
    some ([], 0x00, 0) := by decide +kernel

/-- 95 section 6: a reserved word after reset, and in `ERR`. -/
theorem test_reserved_word :
    after (fun t => (readPort t 0x0, t.errCmd)) (step { st .idle with cmdPort := [0x5000] }) = some (0x0507, 0x5000) ∧
    after (fun t => (readPort t 0x0, t.errCmd))
      (step { st .err with errCode := some .command, errCmd := 0x1105, cmdPort := [0x5000] }) = some (0x0507, 0x1105) := by
  decide +kernel

/-! ## Witnesses: for each statement with hypotheses, a state and operands that meet them, clause by clause -/

/-- DecodeEncodeAgree, DecoderReadsOpcodeAlone: a word that decodes, and two words of one opcode. -/
theorem test_witness_decode :
    decode 0x1190 = .ok (.txPush 0x90) ∧ opcOf 0x1190 = opcOf 0x1100 ∧ opcOf 0x5000 = opcOf 0x50FF := by decide

/-- ReservedWordsRaiseCommandError, ErrIgnoresNonGlobalWords: a reserved word issued, in `ERR` and elsewhere; the listed opcodes
next to the ranges are not reserved. -/
theorem test_witness_reserved :
    (∃ s : State, s.cmdPort = 0x0200 :: [] ∧ s.ctl ≠ .err ∧ reservedOpcode (opcOf 0x0200).toNat = true) ∧
    (∃ s : State, s.ctl = .err ∧ s.cmdPort = 0xFFFF :: [] ∧ reservedOpcode (opcOf 0xFFFF).toNat = true) ∧
    reservedOpcode 0x01 = false ∧ reservedOpcode 0x39 = false :=
  ⟨⟨{ st .idle with cmdPort := [0x0200] }, by decide⟩, ⟨{ st .err with cmdPort := [0xFFFF] }, by decide⟩, by decide⟩

/-- StepRunsDecodedCommand, CommandErrorCauses: an issued word that decodes, one that does not, and no word. -/
theorem test_witness_step :
    (∃ s : State, s.cmdPort = 0x1190 :: [] ∧ decode 0x1190 = .ok (.txPush 0x90)) ∧
    (∃ s : State, s.cmdPort = 0x5000 :: [] ∧ decode 0x5000 = .error (.reserved 0x50) ∧ s.ctl ≠ .err) ∧
    (st .idle).cmdPort = [] :=
  ⟨⟨{ st .idle with cmdPort := [0x1190] }, by decide⟩, ⟨{ st .idle with cmdPort := [0x5000] }, by decide⟩, by decide⟩

/-- ReadPortMap: the ends of the reserved read addresses. -/
theorem test_witness_readPort : 8 ≤ (0x8 : BitVec 4).toNat ∧ 8 ≤ (0xF : BitVec 4).toNat := by decide

/-- SessionCommandsLegalInOneState, CommandErrorCauses: a session command out of its `STATE`, in `ERR`, and a global one. -/
theorem test_witness_legal :
    legalIn (.txSend 0) = some .txClosed ∧ (st .txSent).ctl ≠ .txClosed ∧ (st .txSent).ctl ≠ .err ∧
    (st .err).ctl = .err ∧ legalIn (.pkPush 0) = none ∧ (st .idle).ctl ≠ .err := by decide

/-- ErrIgnoresNonGlobalWords: a session command and a standalone command in `ERR`. -/
theorem test_witness_err :
    (st .err).ctl = .err ∧ legalIn (.rdByte 0) ≠ none ∧
    Instr.upFlush 7 ∈ [Instr.nop 7, .pkPush 7, .pkFlush 7, .upPush 7, .upFlush 7] := by decide

/-- FirstErrorKeptUntilRecovery: a step from `ERR` that leads out, and one that does not. -/
theorem test_witness_recovery :
    (∃ s t : State, s.ctl = .err ∧ step s = .next t ∧ t.ctl ≠ .err ∧ s.cmdPort = 0x2000 :: [] ∧
      decode 0x2000 = .ok (.rxOpen 0)) ∧
    (∃ s t : State, s.ctl = .err ∧ step s = .next t ∧ t.ctl = .err) :=
  ⟨⟨{ st .err with cmdPort := [0x2000] }, _, by decide, rfl, by decide, by decide, by decide⟩,
    ⟨{ st .err with cmdPort := [0x1400] }, _, by decide, rfl, by decide⟩⟩

/-- StateTransitionsAreListed: a command that moves `STATE`. -/
theorem test_witness_transition : ∃ t : State, exec (.rxOpen 0) (st .idle) = .next t ∧ t.ctl ≠ (st .idle).ctl :=
  ⟨_, rfl, by decide⟩

/-- ImmIgnoredWithoutOperand: two words of one command, each with a next state. -/
theorem test_witness_imm : ∃ t u : State, (Instr.txSend 0x00).hasOperand = false ∧
    opcodeOf (.txSend 0x00) = opcodeOf (.txSend 0xFF) ∧ exec (.txSend 0x00) (st .idle) = .next t ∧
    exec (.txSend 0xFF) (st .idle) = .next u :=
  ⟨_, _, by decide, by decide, rfl, rfl⟩

/-- ErrorEntryIsPrecise: a command that ends in `ERR` from an encode session and from a decode session. -/
theorem test_witness_errorEntry :
    (∃ t : State, building.ctl ≠ .err ∧ exec (.rxByte 0) building = .next t ∧ t.ctl = .err) ∧
    (∃ t : State, decoded.ctl ≠ .err ∧ exec (.txPush 0) decoded = .next t ∧ t.ctl = .err ∧ decoded.ctl = .rxDone) :=
  ⟨⟨_, by decide, rfl, by decide⟩, ⟨_, by decide, rfl, by decide, by decide⟩⟩

/-- FormatErrorCauses: every cause occurs (95 section 5.1). -/
theorem test_witness_format :
    after (·.errCode) (exec (.rxByte 0x90) (st .rxActive)) = some (some .format) ∧
    after (·.errCode) (exec (.rxByte 0x12) { st .rxActive with rxSub := .hdrMfr }) = some (some .format) ∧
    after (·.errCode) (exec (.rxByte 0x23) { st .rxActive with rxSub := .hdrFunc }) = some (some .format) ∧
    after (·.errCode) (exec (.rxByte 0x34) { st .rxActive with rxSub := .hdrType }) = some (some .format) ∧
    after (·.errCode) (exec (.rxByte 0x80) { st .rxActive with rxSub := .hdrIdx }) = some (some .format) ∧
    after (·.errCode) (exec (.rxByte 0xF7) inBody) = some (some .format) ∧
    after (·.errCode) (exec (.rxByte 0x80) inBody) = some (some .format) ∧
    after (·.errCode) (exec (.rxEnd 0) inBody) = some (some .format) := by decide +kernel

/-- ChecksumErrorCause: the cause occurs (95 section 5.1), and two data bytes that differ. -/
theorem test_witness_checksum :
    after (fun t => (readPort t 0x0, t.errCmd)) (exec (.rxByte 0xF7) { inBody with holdV := true, rxHold := 0x01 }) =
      some (0x0257, 0x21F7) ∧
    (0x00 : Byte).toNat < 0x80 ∧ (0x7F : Byte).toNat < 0x80 ∧ (0x00 : Byte) ≠ 0x7F := by decide +kernel

/-- SequenceErrorCause: the cause occurs (95 section 5.1). -/
theorem test_witness_sequence :
    after (fun t => (readPort t 0x0, t.errCmd)) (exec (.rxByte 0x01) { st .rxActive with rxSub := .hdrIdx }) =
      some (0x0347, 0x2101) := by decide +kernel

/-- CapacityErrorCauses: every cause occurs. -/
theorem test_witness_capacity :
    after (·.errCode) (exec (.txPush 0) { building with rawLen := 26670 }) = some (some .capacity) ∧
    after (·.errCode) (exec (.txEmitEnd 0) { building with curLen := 210, blkCnt := 127 }) = some (some .capacity) ∧
    after (·.errCode) (exec (.txEmitEnd 0) { building with curLen := 210, rawLen := 26665 }) = some (some .capacity) ∧
    after (·.errCode) (exec (.txClose 0) { building with rawLen := 26670 }) = some (some .capacity) ∧
    after (·.errCode) (exec (.rxByte 0x7F) { st .rxActive with rxSub := .hdrIdx, blkCnt := 127 }) = some (some .capacity) ∧
    after (·.errCode) (exec (.rxByte 0) { inBody with holdV := true, rxIdx := 1, rawLen := 26670 }) =
      some (some .capacity) := by decide +kernel

/-- PackLenScansPairs: a byte other than the sentinel. -/
theorem test_witness_packLen : (0x00 : Byte) ≠ 0xFE ∧ (0xFF : Byte) ≠ 0xFE := by decide

/-- PackedLength, PackUnpackRoundTrip: arrays without an early sentinel, a final one and a pair among them, and one with it. -/
theorem test_witness_noEarlySentinel :
    noEarlySentinel [] = true ∧ noEarlySentinel [0x90, 0xFE] = true ∧ noEarlySentinel [0xFE, 0xFE, 0x01] = true ∧
    noEarlySentinel [0xFE, 0x01] = false := by decide

/-- PackedBytesSevenBit: a packed byte. -/
theorem test_witness_packedByte : (0x7E : Byte) ∈ pack7to8 [0xFE] := by decide

/-- PackedByteAt: the last byte of a full group, the first of the next, and a group with one byte. -/
theorem test_witness_packedAt :
    7 * 0 + 6 < packLen [1, 2, 3, 4, 5, 6, 7, 8] ∧ 7 * 1 + 0 < packLen [1, 2, 3, 4, 5, 6, 7, 8] ∧ 7 * 1 < packLen [1, 2, 3, 4, 5, 6, 7, 8] := by
  decide

/-- UnpackedByteAt: the last data byte of a full group, and the only one of the next. -/
theorem test_witness_unpackedAt :
    8 * 0 + 1 + 6 < ([0, 1, 2, 3, 4, 5, 6, 7, 1, 8] : List Byte).length ∧
    8 * 1 + 1 + 0 < ([0, 1, 2, 3, 4, 5, 6, 7, 1, 8] : List Byte).length := by decide

/-- PkPushEffect: a stopped packer; a terminator confirmed, without a group and with one; a byte that joins at 0 and at 5; a pair
completed; a byte that fills the group. -/
theorem test_witness_pkPush :
    (∃ s : State, s.pkStop = true) ∧
    (∃ s : State, s.pkStop = false ∧ s.pkFep = true ∧ (0x11 : Byte) ≠ 0xFE ∧ s.pkCnt = 0) ∧
    (∃ s : State, s.pkStop = false ∧ s.pkFep = true ∧ (0x11 : Byte) ≠ 0xFE ∧ s.pkCnt = 6) ∧
    (∃ s : State, s.pkStop = false ∧ (s.pkFep = true → (0x11 : Byte) = 0xFE) ∧ s.pkCnt.val + 1 < 7 ∧ s.pkCnt = 0) ∧
    (∃ s : State, s.pkStop = false ∧ (s.pkFep = true → (0xFE : Byte) = 0xFE) ∧ s.pkCnt.val + 1 < 7 ∧ s.pkCnt = 5 ∧
      s.pkFep = true) ∧
    (∃ s : State, s.pkStop = false ∧ (s.pkFep = true → (0x11 : Byte) = 0xFE) ∧ s.pkCnt.val = 6) :=
  ⟨⟨{ st .idle with pkStop := true }, by decide⟩, ⟨{ st .idle with pkFep := true }, by decide⟩,
    ⟨{ st .idle with pkFep := true, pkCnt := 6 }, by decide⟩, ⟨st .idle, by decide⟩,
    ⟨{ st .idle with pkFep := true, pkCnt := 5 }, by decide⟩, ⟨{ st .idle with pkCnt := 6 }, by decide⟩⟩

/-- The document of `TX_OPEN TX_CLOSE` meets the invariants. -/
theorem test_closed_inv : Invariants closed where
  docWf := by decide
  docFilled := by decide +kernel
  rawLenCap := by decide
  sendIdxLe := by decide
  rdPtrLe := by decide
  blkStartZero := by decide +kernel
  blkStartOrder := fun i hi => by
    have hi : i + 1 < 2 := hi
    obtain rfl : i = 0 := by omega
    decide +kernel
  blkStartLe := by decide +kernel
  pkStopEmpty := by decide
  pkMaskBits := by decide
  errCodeIff := by decide
  errCmdZero := by decide
  idleEmpty := by decide
  encodeBlocks := by decide +kernel
  encodeSizes := fun _ => ⟨by decide +kernel, fun i h1 h2 => by
    have h2 : i + 1 < 2 := h2
    omega⟩
  sendPosition := by decide
  decodeSendIdx := by decide
  betweenMessages := by decide
  inBody := fun h => by cases h
  readPortOpen := by decide

/-- EveryStepKeepsInvariants, EveryCommandCompletes, PackerStreamsPack7to8, SentMessagesAreWellFormed: that state with the word
of TX_SEND issued. -/
theorem test_witness_inv :
    Invariants { closed with cmdPort := [0x1400] } ∧ closed.ctl = .txClosed ∧ closed.pkCnt = 0 ∧ closed.pkFep = false ∧
    closed.pkStop = false ∧
    after (·.sendIdx) (step { closed with cmdPort := [0x1400] }) = some 1 := by
  refine ⟨test_closed_inv.withPort _, ?_⟩
  decide +kernel

/-- UnpackerStreamsUnpack8to7: the start of a group. -/
theorem test_witness_upIdx : (st .err).upIdx = 0 := by decide

/-- TxPushAppendsByte, TxCloseEndsDocument: the last byte that fits, the first that does not, and another `STATE`. -/
theorem test_witness_txPush :
    (∃ s : State, s.ctl = .txBuild ∧ s.rawLen.toNat < 26670 ∧ s.rawLen.toNat = 26669) ∧
    (∃ s : State, s.ctl = .txBuild ∧ s.rawLen.toNat = 26670) ∧ (∃ s : State, s.ctl ≠ .txBuild ∧ s.ctl ≠ .err) :=
  ⟨⟨{ building with rawLen := 26669 }, by decide⟩, ⟨{ building with rawLen := 26670 }, by decide⟩, ⟨st .txSent, by decide⟩⟩

/-- TxEmitEndBreaksFullBlock: 209 bytes; 210 bytes with 127 blocks, without room for the 6 bytes, and with the last room for
them; another `STATE`. -/
theorem test_witness_txEmitEnd :
    (∃ s : State, s.ctl = .txBuild ∧ s.curLen.toNat < 210 ∧ s.curLen.toNat = 209) ∧
    (1 = (if (210 + 1) % 2 = 1 ∧ 210 + 1 ≠ 7 then 1 else 0)) ∧
    (∃ s : State, s.ctl = .txBuild ∧ s.curLen.toNat = 210 ∧ s.blkCnt.toNat = 127) ∧
    (∃ s : State, s.ctl = .txBuild ∧ s.curLen.toNat = 210 ∧ s.rawLen.toNat + 1 + 1 + 4 > 26670) ∧
    (∃ s : State, s.ctl = .txBuild ∧ s.curLen.toNat = 210 ∧ s.blkCnt.toNat ≠ 127 ∧ s.rawLen.toNat + 1 + 1 + 4 ≤ 26670) ∧
    (∃ s : State, s.ctl ≠ .txBuild ∧ s.ctl ≠ .err) :=
  ⟨⟨{ building with curLen := 209 }, by decide⟩, by decide, ⟨{ building with curLen := 210, blkCnt := 127 }, by decide⟩,
    ⟨{ building with curLen := 210, rawLen := 26665 }, by decide⟩,
    ⟨{ building with curLen := 210, rawLen := 26664 }, by decide⟩, ⟨st .idle, by decide⟩⟩

/-- TxSendEmitsNextBlock: the last block of program 2, and a block before another. -/
theorem test_witness_txSend :
    sending.ctl = .txClosed ∧ sending.sendIdx.toNat < 127 ∧ 42 = blkStartAt sending sending.sendIdx.toNat ∧
    53 = (if sending.sendIdx.toNat + 1 < sending.blkCnt.toNat then blkStartAt sending (sending.sendIdx.toNat + 1)
      else sending.rawLen.toNat) ∧
    ([0x44, 0x55, 0x00, 0x00, 0x00, 0x90, 0x3C, 0x64, 0x00, 0xFC, 0xFE] : List Byte).length = 53 - 42 ∧
    (∀ j, j < 11 → Memory.read sending.doc (42 + j) =
      ([0x44, 0x55, 0x00, 0x00, 0x00, 0x90, 0x3C, 0x64, 0x00, 0xFC, 0xFE] : List Byte)[j]?) ∧
    closed.sendIdx.toNat + 1 < closed.blkCnt.toNat ∧ building.ctl ≠ .txClosed ∧ building.ctl ≠ .err := by decide +kernel

/-- EncodeErrorKeepsDocument, DecodeErrorDiscardsDocument: a step that takes the error entry from each kind of session. -/
theorem test_witness_sessionError :
    (∃ s t : State, s.ctl.isEncode = true ∧ step s = .next t ∧ t.ctl = .err) ∧
    (∃ s t : State, s.ctl.isDecode = true ∧ step s = .next t ∧ t.ctl = .err ∧ s.ctl = .rxDone) ∧
    (∃ s t : State, s.ctl.isDecode = true ∧ step s = .next t ∧ t.ctl = .err ∧ s.ctl = .rxActive) :=
  ⟨⟨{ building with cmdPort := [0x1400] }, _, by decide, rfl, by decide⟩,
    ⟨{ decoded with cmdPort := [0x5000] }, _, by decide, rfl, by decide, by decide⟩,
    ⟨{ inBody with cmdPort := [0x21F8] }, _, by decide, rfl, by decide, by decide⟩⟩

/-- RxByteChecksHeader, RxByteChecksIndex: every position of the header. -/
theorem test_witness_rxHeader :
    [RxSub.waitF0, .hdrMfr, .hdrFunc, .hdrType, .hdrIdx].all
      (fun r => { st .rxActive with rxSub := r }.ctl = .rxActive && { st .rxActive with rxSub := r }.rxSub = r) = true := by
  decide

/-- RxByteAcceptsHeldByte: nothing held; a mask byte held; a data byte held, with no room and with the last room. -/
theorem test_witness_rxBody :
    (∃ s : State, s.ctl = .rxActive ∧ s.rxSub = .body ∧ (0x7F : Byte).toNat < 0x80 ∧ s.holdV = false) ∧
    (∃ s : State, s.ctl = .rxActive ∧ s.rxSub = .body ∧ s.holdV = true ∧ s.rxIdx = 0) ∧
    (∃ s : State, s.ctl = .rxActive ∧ s.rxSub = .body ∧ s.holdV = true ∧ s.rxIdx ≠ 0 ∧ s.rawLen.toNat = 26670) ∧
    (∃ s : State, s.ctl = .rxActive ∧ s.rxSub = .body ∧ s.holdV = true ∧ s.rxIdx ≠ 0 ∧ s.rawLen.toNat < 26670 ∧
      s.rxIdx = 7) :=
  ⟨⟨inBody, by decide⟩, ⟨{ inBody with holdV := true }, by decide⟩,
    ⟨{ inBody with holdV := true, rxIdx := 1, rawLen := 26670 }, by decide⟩,
    ⟨{ inBody with holdV := true, rxIdx := 7, rawLen := 26669 }, by decide⟩⟩

/-- RxByteCompletesMessage, RxByteRejectsHighByte: no checksum, a wrong one, a right one with the last block to spare; a high
byte. -/
theorem test_witness_rxBodyEnd :
    (∃ s : State, s.ctl = .rxActive ∧ s.rxSub = .body ∧ s.holdV = false) ∧
    (∃ s : State, s.ctl = .rxActive ∧ s.rxSub = .body ∧ s.holdV = true ∧ s.rxSum.toNat ≠ s.rxHold.toNat) ∧
    (∃ s : State, s.ctl = .rxActive ∧ s.rxSub = .body ∧ s.holdV = true ∧ s.rxSum.toNat = s.rxHold.toNat ∧
      s.blkCnt.toNat < 127) ∧
    0x80 ≤ (0x80 : Byte).toNat ∧ (0x80 : Byte) ≠ 0xF7 :=
  ⟨⟨inBody, by decide⟩, ⟨{ inBody with holdV := true, rxHold := 0x01 }, by decide⟩,
    ⟨{ inBody with holdV := true, rxSum := 0x7F, rxHold := 0x7F, blkCnt := 126 }, by decide⟩, by decide⟩

/-- RxEndCompletesDocument: a document received, none, one with an open message, another `STATE`. -/
theorem test_witness_rxEnd :
    (∃ s : State, s.ctl = .rxActive ∧ s.rxSub = .waitF0 ∧ s.blkCnt ≠ 0) ∧
    (∃ s : State, s.ctl = .rxActive ∧ (s.rxSub ≠ .waitF0 ∨ s.blkCnt = 0) ∧ s.blkCnt = 0) ∧
    (∃ s : State, s.ctl = .rxActive ∧ (s.rxSub ≠ .waitF0 ∨ s.blkCnt = 0) ∧ s.blkCnt ≠ 0) ∧
    (∃ s : State, s.ctl ≠ .rxActive ∧ s.ctl ≠ .err) :=
  ⟨⟨{ st .rxActive with blkCnt := 1 }, by decide⟩, ⟨st .rxActive, by decide⟩, ⟨{ inBody with blkCnt := 1 }, by decide⟩,
    ⟨decoded, by decide⟩⟩

/-- RdByteReturnsNextByte, RdSkipBreakSkipsHeader: a byte at the read port, a sentinel, the end, another `STATE`. -/
theorem test_witness_rdByte :
    (∃ s : State, s.ctl = .rxDone ∧ s.rdPtr.toNat < s.rawLen.toNat ∧ s.rdPtr.toNat < 26670 ∧
      Memory.read s.doc s.rdPtr.toNat = some 0x44) ∧
    (∃ s : State, s.ctl = .rxDone ∧ s.rdPtr.toNat < s.rawLen.toNat ∧ s.rdPtr.toNat < 26670 ∧
      Memory.read s.doc s.rdPtr.toNat = some 0xFE) ∧
    (∃ s : State, s.ctl = .rxDone ∧ s.rawLen.toNat ≤ s.rdPtr.toNat ∧ s.rdPtr = s.rawLen) ∧
    (∃ s : State, s.ctl ≠ .rxDone ∧ s.ctl ≠ .err) :=
  ⟨⟨{ decoded with rdPtr := 42 }, by decide +kernel⟩, ⟨{ decoded with rdPtr := 41 }, by decide +kernel⟩,
    ⟨{ decoded with rdPtr := 53 }, by decide⟩, ⟨inBody, by decide⟩⟩

/-- RxMessageUnpacksPayload: the last block to spare, with a payload that just fits and with an empty one. -/
theorem test_witness_rxMessage :
    (∃ s : State, s.ctl = .rxActive ∧ s.rxSub = .waitF0 ∧ (0x7E : Byte).toNat = s.blkCnt.toNat ∧ s.blkCnt.toNat < 127 ∧
      (∀ b ∈ ([0x03, 0x7E, 0x7E, 0x01] : List Byte), b.toNat < 0x80) ∧
      s.rawLen.toNat + unpackedSize ([0x03, 0x7E, 0x7E, 0x01] : List Byte).length = 26670) ∧
    (∃ s : State, s.ctl = .rxActive ∧ s.rxSub = .waitF0 ∧ (0x00 : Byte).toNat = s.blkCnt.toNat ∧ s.blkCnt.toNat < 127 ∧
      (∀ b ∈ ([] : List Byte), b.toNat < 0x80) ∧ s.rawLen.toNat + unpackedSize ([] : List Byte).length ≤ 26670) :=
  ⟨⟨{ st .rxActive with blkCnt := 126, rawLen := 26667 }, by decide⟩, ⟨st .rxActive, by decide⟩⟩

/-- ParametersConstrainedAndReadOnly, OutIsAppendOnly: a step, and a command that emits. -/
theorem test_witness_out :
    (∃ s t : State, step s = .next t) ∧
    (∃ s t : State, exec (.upPush 0x7E) s = .next t ∧ t.out ≠ s.out) :=
  ⟨⟨st .idle, _, rfl⟩, ⟨{ st .idle with upIdx := 1 }, _, rfl, by decide⟩⟩

/-- DocWrittenOnlyByAppend: a command that appends, changing the byte at `RAWLEN`; a new document, changing the byte at 0 under
an old one. -/
theorem test_witness_doc :
    (∃ t : State, exec (.txPush 0x90) building = .next t ∧ Memory.read t.doc 46 ≠ Memory.read building.doc 46 ∧
      (∀ b, Instr.txPush 0x90 ≠ .reset b) ∧ (∀ b, Instr.txPush 0x90 ≠ .txOpen b) ∧ t.doc ≠ building.doc) ∧
    (∃ s t : State, exec (.txOpen 0) s = .next t ∧ Memory.read t.doc 0 ≠ Memory.read s.doc 0 ∧
      (∀ b, Instr.txOpen 0 ≠ .reset b) ∧ 0 < s.rawLen.toNat) :=
  ⟨⟨_, rfl, by decide, nofun, nofun, by decide⟩,
    ⟨{ st .rxDone with rawLen := 1, doc := [(0, 0x10)] }, _, rfl, by decide +kernel, nofun, by decide⟩⟩

/-- SessionsLeaveStandaloneState, StandaloneCommandsLeaveSession: a session command, an OPEN, a standalone command. -/
theorem test_witness_standalone :
    (∃ t : State, exec (.txPush 1) building = .next t ∧ legalIn (.txPush 1) ≠ none) ∧
    (∃ t : State, exec (.rxOpen 0) building = .next t ∧ ∃ b, Instr.rxOpen 0 = .txOpen b ∨ Instr.rxOpen 0 = .rxOpen b) ∧
    Instr.pkPush 1 ∈ [Instr.pkPush 1, .pkFlush 1, .upPush 1, .upFlush 1] :=
  ⟨⟨_, rfl, by decide⟩, ⟨_, rfl, 0, .inr rfl⟩, by decide⟩

end Sys2Proof.Tests
end

section
/-! PROOF. The read port (R22), RX_OPEN (R170) and TX_SEND (R141). -/

namespace Sys2Proof.Machine

/-! ## The read port -/

/-- A field of `n` bits placed at bit `k` of a word stays below bit `n + k`. -/
theorem setWidth_shiftLeft_lt {n k m : Nat} (x : BitVec n) (h : n + k ≤ m) :
    (x.setWidth 16 <<< k).toNat < 2 ^ m := by
  have hx : (x.setWidth 16).toNat ≤ x.toNat := by
    rw [BitVec.toNat_setWidth]; exact Nat.mod_le _ _
  calc (x.setWidth 16 <<< k).toNat
      ≤ (x.setWidth 16).toNat * 2 ^ k := by
        rw [BitVec.toNat_shiftLeft, Nat.shiftLeft_eq]; exact Nat.mod_le _ _
    _ < 2 ^ n * 2 ^ k := Nat.mul_lt_mul_of_pos_right (hx.trans_lt x.isLt) (Nat.two_pow_pos k)
    _ = 2 ^ (n + k) := (Nat.pow_add 2 n k).symm
    _ ≤ 2 ^ m := Nat.pow_le_pow_right Nat.two_pos h

/-- A flag is a field of one bit. -/
theorem flagWord_eq_setWidth (b : Bool) : flagWord b = (BitVec.ofBool b).setWidth 16 := by
  cases b <;> rfl

/-- Bits 15:14 of `STATUS` are reserved and read 0: its highest field, `PKSTOP`, is bit 13 (R24). -/
theorem statusWord_lt (s : State) : (statusWord s).toNat < 2 ^ 14 := by
  have hctl : (s.ctl.code.setWidth 16).toNat < 2 ^ 14 := by
    rw [← BitVec.shiftLeft_zero (s.ctl.code.setWidth 16)]
    exact setWidth_shiftLeft_lt _ (by decide)
  simp only [statusWord, flagWord_eq_setWidth, BitVec.toNat_or]
  refine Nat.or_lt_two_pow (Nat.or_lt_two_pow (Nat.or_lt_two_pow (Nat.or_lt_two_pow
    (Nat.or_lt_two_pow hctl ?rxSub) ?errCode) ?rdValid) ?pkFep) ?pkStop
  all_goals exact setWidth_shiftLeft_lt _ (by decide)

/-- The reserved read addresses (R22). -/
theorem readPort_reserved (s : State) {a : BitVec 4} (h : 8 ≤ a.toNat) : readPort s a = 0x0000 := by
  unfold readPort
  split
  case h_9 => rfl
  all_goals exact absurd h (by decide)

/-- Settles O10: each address by its row of R22; every register is narrower than the port, so it reads as itself. -/
theorem readPortMap : Obligations.ReadPortMap := fun s =>
  ⟨rfl, statusWord_lt s,
    BitVec.toNat_setWidth_of_le (by decide), BitVec.toNat_setWidth_of_le (by decide),
    BitVec.toNat_setWidth_of_le (by decide), BitVec.toNat_setWidth_of_le (by decide),
    BitVec.toNat_setWidth_of_le (by decide), BitVec.toNat_setWidth_of_le (by decide),
    rfl, fun _ => readPort_reserved s⟩

/-! ## RX_OPEN -/

/-- RX_OPEN as a command: it always completes (R170). -/
theorem exec_rxOpen (imm : Byte) (s : State) :
    exec (.rxOpen imm) s = .next { clearSession s with ctl := .rxActive } := rfl

/-- Settles O42: RX_OPEN is `ClearSession` (R43) and the new `STATE`. -/
theorem rxOpenStartsDecodeSession : Obligations.RxOpenStartsDecodeSession := exec_rxOpen

/-! ## TX_SEND -/

/-- The body of TX_SEND on a block whose raw content reads as `raw` (R141). -/
theorem txSend_ok {s : State} {raw : List Byte} (h : blockBytes s.sendIdx.toNat s = .ok raw) :
    txSend s = .ok (sent raw s) := by
  rw [txSend, h]; rfl

/-- The state TX_SEND leaves, with the bytes of the message written out (R77, R141). -/
theorem sent_eq (raw : List Byte) {s : State} (h : s.ctl = .txClosed) :
    sent raw s = { s with
      out := s.out ++ [0xF0, s.params.mfrId, s.params.funcId, s.params.typeId, s.sendIdx.setWidth 8] ++ pack7to8 raw
        ++ [cks (pack7to8 raw), 0xF7]
      sendIdx := s.sendIdx + 1
      ctl := if s.sendIdx + 1 = s.blkCnt then .txSent else .txClosed } := by
  simp only [sent, sysexMessage, h, List.append_assoc]; rfl

/-- TX_SEND as a command in `TX_CLOSED`, on a block whose raw content reads as `raw` (R141). -/
theorem exec_txSend_ok (imm : Byte) {s : State} {raw : List Byte} (hc : s.ctl = .txClosed)
    (h : blockBytes s.sendIdx.toNat s = .ok raw) : exec (.txSend imm) s = .next (sent raw s) := by
  rw [exec_session (c := .txClosed) rfl, runSession_legal (by decide) hc, sessionBody, txSend_ok h, finish]

/-- Settles O39: the premises say that block `SENDIDX` reads as `raw` (R36), so TX_SEND emits its message; elsewhere the
command is illegal (R212). -/
theorem txSendEmitsNextBlock : Obligations.TxSendEmitsNextBlock := by
  intro imm s raw lo hi
  constructor
  · intro hc hidx hlo hhi hlen hcap hread
    rw [exec_txSend_ok imm hc (blockBytes_ok hidx hlo hhi hlen hcap hread), sent_eq raw hc]
  · intro hc he
    exact (exec_session (c := .txClosed) rfl s).trans (runSession_illegal he hc)

end Sys2Proof.Machine
end

section
/-! PROOF. The packed form byte by byte (R58, R101). -/

namespace Sys2Proof.Machine

/-! ## The packer's scan -/

/-- The scan packs no more than the array holds (R100). -/
theorem packLen_le_length (raw : List Byte) : packLen raw ≤ raw.length := by
  induction raw using packLen.induct with
  | case1 | case2 => simp [packLen]
  | case3 rest ih => simpa [packLen] using ih
  | case4 c rest hc => simp [packLen, hc]
  | case5 b c rest hb ih => simpa [packLen, hb] using ih

/-! ## One packed group -/

/-- Bit `k` of the mask built from `i` up is bit 7 of the byte that stands `k - i` places on (R58). -/
theorem getLsbD_maskFrom (i k : Nat) (run : List Byte) :
    (maskFrom i run).getLsbD k = (decide (i ≤ k ∧ k < 8) && bit7 (run.getD (k - i) 0)) := by
  induction run generalizing i with
  | nil => simp [maskFrom, bit7]
  | cons b bs ih =>
    have hbit : (if bit7 b then 1#8 <<< i else 0x00).getLsbD k = (decide (i = k ∧ k < 8) && bit7 b) := by
      rw [← BitVec.twoPow_eq]
      split_ifs with hb
      · rw [BitVec.getLsbD_twoPow, hb]
        grind
      · simp [hb]
    rw [maskFrom, BitVec.getLsbD_or, hbit, ih]
    rcases Nat.lt_trichotomy i k with h | rfl | h
    · obtain ⟨d, rfl⟩ := Nat.exists_eq_add_of_lt h
      simp [show i + d + 1 - i = d + 1 by omega, show i + d + 1 - (i + 1) = d by omega,
        show i ≤ i + d + 1 by omega, show i ≠ i + d + 1 by omega]
    · simp
    · simp [show ¬ i ≤ k by omega, show ¬ i + 1 ≤ k by omega, h.ne']

@[simp] theorem length_packGroup (run : List Byte) : (packGroup run).length = run.length + 1 := by
  simp [packGroup]

/-! ## The groups in a row -/

@[simp] theorem packGroups_nil (n : Nat) : packGroups n [] = [] := by
  cases n <;> rfl

/-- What is left to pack starts with a group of up to 7. -/
theorem packGroups_eq {n : Nat} {xs : List Byte} (h0 : 0 < xs.length) (hn : xs.length ≤ n) :
    packGroups n xs = packGroup (xs.take 7) ++ packGroups (n - 1) (xs.drop 7) := by
  obtain ⟨m, rfl⟩ := Nat.exists_eq_succ_of_ne_zero (h0.trans_le hn).ne'
  match xs with
  | _ :: _ => rfl

/-- The packed length (R102). -/
theorem length_packGroups {n : Nat} {xs : List Byte} (hn : xs.length ≤ n) :
    (packGroups n xs).length = packedSize xs.length := by
  induction n generalizing xs with
  | zero => simp_all [packedSize]
  | succ n ih =>
    rcases Nat.eq_zero_or_pos xs.length with h0 | h0
    · simp_all [packedSize]
    · have hrest : (xs.drop 7).length ≤ n := by rw [List.length_drop]; omega
      rw [packGroups_eq h0 hn, List.length_append, Nat.add_sub_cancel, ih hrest, length_packGroup,
        List.length_take, List.length_drop]
      unfold packedSize
      split_ifs <;> omega

/-- The 8 bytes from `8g` on are the group packed of the raw bytes from `7g` on (R101). -/
theorem getElem?_packGroups {n g i : Nat} {xs : List Byte} (hn : xs.length ≤ n) (hg : 7 * g < xs.length)
    (hi : i < 8) : (packGroups n xs)[8 * g + i]? = (packGroup ((xs.drop (7 * g)).take 7))[i]? := by
  rw [packGroups_eq (Nat.zero_lt_of_lt hg) hn]
  induction g generalizing n xs with
  | zero =>
    rcases Nat.lt_or_ge xs.length 7 with hshort | hfull
    · simp [List.drop_eq_nil_of_le hshort.le]
    · simp [List.getElem?_append_left, hfull, hi]
  | succ g ih =>
    have hlen : (packGroup (xs.take 7)).length = 8 := by
      rw [length_packGroup, List.length_take]; omega
    have hn' : (xs.drop 7).length ≤ n - 1 := by rw [List.length_drop]; omega
    have hg' : 7 * g < (xs.drop 7).length := by rw [List.length_drop]; omega
    rw [List.getElem?_append_right (by omega), hlen, show 8 * (g + 1) + i - 8 = 8 * g + i by omega,
      packGroups_eq (Nat.zero_lt_of_lt hg') hn', ih hn' hg', List.drop_drop, show 7 + 7 * g = 7 * (g + 1) by omega]

/-! ## The packed form of an array -/

/-- The raw bytes of packed group `g`. -/
def groupRun (raw : List Byte) (g : Nat) : List Byte := ((raw.take (packLen raw)).drop (7 * g)).take 7

theorem getElem?_groupRun (raw : List Byte) (g j : Nat) :
    (groupRun raw g)[j]? = if j < 7 ∧ 7 * g + j < packLen raw then some (raw.getD (7 * g + j) 0) else none := by
  have hle := packLen_le_length raw
  unfold groupRun
  split_ifs with h
  · rw [List.getElem?_take_of_lt h.1, List.getElem?_drop, List.getElem?_take_of_lt h.2,
      List.getElem?_eq_getElem (by omega), List.getD_eq_getElem]
  · rw [List.getElem?_eq_none]
    simp only [List.length_take, List.length_drop]
    omega

theorem length_take_packLen (raw : List Byte) : (raw.take (packLen raw)).length = packLen raw :=
  List.length_take_of_le (packLen_le_length raw)

/-- The packed length of an array (R102). -/
theorem length_pack7to8 (raw : List Byte) : (pack7to8 raw).length = packedSize (packLen raw) := by
  rw [pack7to8, length_packGroups (length_take_packLen raw).le, length_take_packLen]

/-- Byte `i` of packed group `g` (R101). -/
theorem getElem?_pack7to8 {raw : List Byte} {g i : Nat} (hg : 7 * g < packLen raw) (hi : i < 8) :
    (pack7to8 raw)[8 * g + i]? = (packGroup (groupRun raw g))[i]? :=
  getElem?_packGroups (length_take_packLen raw).le (by rwa [length_take_packLen]) hi

/-- Settles O25: the 8 bytes from `8g` on are the packed group of the raw bytes from `7g` on, whose mask and data bytes
are read one by one. -/
theorem packedByteAt : Obligations.PackedByteAt := by
  refine ⟨fun raw => ⟨packLen_le_length raw, length_pack7to8 raw⟩, fun raw g j hj hlt => ?data, fun raw g hg => ?mask⟩
  case data =>
    rw [Nat.add_assoc, getElem?_pack7to8 (by omega) (by omega), Nat.add_comm 1 j, packGroup,
      List.getElem?_cons_succ, List.getElem?_map, getElem?_groupRun, if_pos ⟨hj, hlt⟩]
    rfl
  case mask =>
    refine ⟨maskFrom 0 (groupRun raw g), getElem?_pack7to8 (i := 0) hg (by decide), fun j => ?_⟩
    rw [getLsbD_maskFrom, Nat.sub_zero, List.getD_eq_getElem?_getD, getElem?_groupRun]
    by_cases h : j < 7 ∧ 7 * g + j < packLen raw
    · rw [if_pos h, decide_eq_true h, decide_eq_true (by omega)]
      rfl
    · rw [if_neg h, decide_eq_false h]
      simp [bit7]

end Sys2Proof.Machine
end

section
/-! PROOF. The decoder reads `OPC` alone (R74), and what a step does with a reserved word (R73, R213). -/

namespace Sys2Proof.Machine

/-! ## The decoder -/

/-- What the decoder can answer, and for which opcodes: a command of the word's two fields, or the opcode as reserved. -/
theorem decode_cases (w : Word) :
    (reservedOpcode (opcOf w).toNat = false ∧ ∃ i, decode w = .ok i ∧ opcodeOf i = opcOf w ∧ i.imm = immOf w) ∨
    (reservedOpcode (opcOf w).toNat = true ∧ decode w = .error (.reserved (opcOf w))) := by
  unfold decode
  split
  -- the default arm: what the sixteen rows of R72 leave over
  case h_17 =>
    refine .inr ⟨?_, rfl⟩
    simp only [reservedOpcode, Bool.or_eq_true, Bool.and_eq_true, decide_eq_true_eq, imp_false,
      ← BitVec.toNat_inj, BitVec.toNat_ofNat] at *
    omega
  all_goals
    rename_i h
    exact .inl ⟨by rw [h]; rfl, _, rfl, h.symm, rfl⟩

/-- A word is reserved exactly when its opcode is one R73 lists. -/
theorem decode_eq_reserved_iff (w : Word) :
    (∃ opc, decode w = .error (.reserved opc)) ↔ reservedOpcode (opcOf w).toNat = true := by
  rcases decode_cases w with ⟨hr, i, hi, -⟩ | ⟨hr, he⟩
  · simp [hr, hi]
  · simp [hr, he]

/-- The decoder selects the command from `OPC` (R74). -/
theorem map_opcodeOf_decode (w : Word) : (decode w).map opcodeOf =
    if reservedOpcode (opcOf w).toNat = true then .error (.reserved (opcOf w)) else .ok (opcOf w) := by
  rcases decode_cases w with ⟨hr, i, hi, hopc, -⟩ | ⟨hr, he⟩
  · simp [hr, hi, hopc, Except.map]
  · simp [hr, he, Except.map]

/-- Settles O2: the decoder's two answers, and the command it selects as a function of `OPC`. -/
theorem decoderReadsOpcodeAlone : Obligations.DecoderReadsOpcodeAlone :=
  ⟨fun w => (decode_cases w).imp And.right And.right,
    fun v w h => by rw [map_opcodeOf_decode, map_opcodeOf_decode, h]⟩

/-! ## A step that takes a reserved word -/

/-- Taking the word at the head of the port (R21). -/
theorem takeWord_cons {s : State} {w : Word} {ws : List Word} (h : s.cmdPort = w :: ws) :
    takeWord s = some (w, { s with cmdPort := ws }) := by
  simp only [takeWord, h]

/-- A step that takes a word with no command. -/
theorem step_of_decode_error {s : State} {w : Word} {ws : List Word} {e : DecodeError} (h : s.cmdPort = w :: ws)
    (he : decode w = .error e) : step s = execReserved w { s with cmdPort := ws } := by
  simp only [step, takeWord_cons h, he]

/-- A reserved word has a next state in every `STATE` (R213, R214). -/
theorem execReserved_eq (w : Word) (s : State) :
    execReserved w s = .next (if s.ctl = .err then s else errorEntry .command w s) :=
  (apply_ite _ _ _ _).symm

/-- Settles O4: R73's list by the decoder's two answers, its length by counting, and the step by `execReserved`. -/
theorem reservedWordsRaiseCommandError : Obligations.ReservedWordsRaiseCommandError := by
  refine ⟨decode_eq_reserved_iff, by decide +kernel, fun s w ws h hr => ?_⟩
  obtain ⟨opc, he⟩ := (decode_eq_reserved_iff w).mpr hr
  rw [step_of_decode_error h he, execReserved_eq]

end Sys2Proof.Machine
end

section
/-! PROOF. The pure functions of the packer: the scan (R100), the packed length and range (R102, R103), unpacking and its round
trip (R104 to R106), the checksum (R107). -/

namespace Sys2Proof.Machine

/-! ## The packer's scan -/

/-- A byte other than 0xFE is packed, and the scan goes on after it (R100). -/
theorem packLen_cons_of_ne {b : Byte} (hb : b ≠ Config.sentinel) (raw : List Byte) :
    packLen (b :: raw) = packLen raw + 1 := by
  cases raw with
  | nil => rfl
  | cons c rest => rw [packLen, if_neg hb]

/-- A literal pair is packed, and the scan goes on after it (R100). -/
theorem packLen_pair (raw : List Byte) :
    packLen (Config.sentinel :: Config.sentinel :: raw) = packLen raw + 2 := by
  rw [packLen, if_pos rfl, if_pos rfl]

/-- An unpaired 0xFE is packed and ends the scan (R100). -/
theorem packLen_terminator {c : Byte} (hc : c ≠ Config.sentinel) (raw : List Byte) :
    packLen (Config.sentinel :: c :: raw) = 1 := by
  rw [packLen, if_pos rfl, if_neg hc]

/-- All of an array is packed exactly when no unpaired 0xFE stands before its last byte (R100). -/
theorem noEarlySentinel_iff (raw : List Byte) : noEarlySentinel raw = true ↔ packLen raw = raw.length := by
  induction raw using packLen.induct with
  | case1 | case2 => simp [noEarlySentinel, packLen]
  | case3 rest ih =>
    rw [packLen_pair, List.length_cons, List.length_cons, Nat.add_right_cancel_iff, ← ih]
    rfl
  | case4 c rest hc =>
    have hearly : noEarlySentinel (Config.sentinel :: c :: rest) = (c == Config.sentinel && noEarlySentinel rest) := rfl
    simp [hearly, beq_false_of_ne hc, packLen_terminator hc]
  | case5 b c rest hb ih =>
    rw [packLen_cons_of_ne hb, List.length_cons, Nat.add_right_cancel_iff, ← ih, noEarlySentinel, if_neg (show b ≠ 0xFE from hb)]

/-- Settles O22: the scan's equation for each way an array can begin, its bound, and when it takes the whole array. -/
theorem packLenScansPairs : Obligations.PackLenScansPairs :=
  ⟨rfl, rfl, fun _ raw hb => packLen_cons_of_ne hb raw, packLen_pair, fun _ raw hc => packLen_terminator hc raw,
    packLen_le_length, noEarlySentinel_iff⟩

/-- Settles O23: the packed length for what the scan takes, which is the whole array where no early sentinel stands. -/
theorem packedLength : Obligations.PackedLength :=
  ⟨length_pack7to8, fun raw h => by rw [length_pack7to8, (noEarlySentinel_iff raw).mp h], fun _ => rfl, rfl, rfl⟩

/-! ## Packed bytes are data bytes -/

theorem low7_lt (b : Byte) : (low7 b).toNat < 0x80 := by
  rw [low7, BitVec.toNat_and]
  exact Nat.lt_succ_of_le Nat.and_le_right

/-- The mask of a group has no bit at or above the group's length, so bit 7 stays clear (R75). -/
theorem maskFrom_lt {run : List Byte} (h : run.length ≤ 7) : (maskFrom 0 run).toNat < 0x80 := by
  have hmsb : (maskFrom 0 run).msb = false := by
    rw [BitVec.msb_eq_getLsbD_last, getLsbD_maskFrom, List.getD_eq_default _ _ (by omega)]
    rfl
  exact BitVec.toNat_lt_of_msb_false hmsb

theorem packGroup_lt {run : List Byte} (h : run.length ≤ 7) {b : Byte} (hb : b ∈ packGroup run) : b.toNat < 0x80 := by
  rcases List.mem_cons.mp hb with rfl | hb
  · exact maskFrom_lt h
  · obtain ⟨d, -, rfl⟩ := List.mem_map.mp hb
    exact low7_lt d

theorem packGroups_lt {n : Nat} {xs : List Byte} {b : Byte} (hb : b ∈ packGroups n xs) : b.toNat < 0x80 := by
  induction n, xs using packGroups.induct with
  | case1 | case2 => simp [packGroups] at hb
  | case3 n c cs ih =>
    rcases List.mem_append.mp hb with hb | hb
    · exact packGroup_lt (List.length_take_le _ _) hb
    · exact ih hb

/-- Settles O24: every packed byte is a mask byte or a data byte of a group of up to 7. -/
theorem packedBytesSevenBit : Obligations.PackedBytesSevenBit := fun _ _ => packGroups_lt

/-! ## Restoring bit 7 -/

theorem getLsbD_low7 (b : Byte) {k : Nat} (hk : k < 8) : (low7 b).getLsbD k = (decide (k ≠ 7) && b.getLsbD k) := by
  have hmask : (0x7F#8).getLsbD k = decide (k ≠ 7) := by revert k; decide
  rw [low7, BitVec.getLsbD_and, Bool.and_comm]
  exact congrArg (· && b.getLsbD k) hmask

/-- Bit 7 is the mask's bit `j`, the other bits are the data byte's (R104). -/
theorem getLsbD_restoreBit7 (mask : Byte) (j : Nat) (d : Byte) {k : Nat} (hk : k < 8) :
    (restoreBit7 mask j d).getLsbD k = if k = 7 then mask.getLsbD j else d.getLsbD k := by
  rw [restoreBit7, BitVec.getLsbD_or, getLsbD_low7 _ hk, BitVec.getLsbD_shiftLeft]
  rcases eq_or_ne k 7 with rfl | hk7
  · simp
  · simp [hk7, show k < 7 by omega]

/-- Restoring a byte's own bit 7 gives the byte back (R104). -/
theorem restoreBit7_low7 {mask : Byte} {j : Nat} {b : Byte} (h : mask.getLsbD j = bit7 b) :
    restoreBit7 mask j (low7 b) = b := by
  refine BitVec.eq_of_getLsbD_eq fun k hk => ?_
  rw [getLsbD_restoreBit7 _ _ _ hk]
  split_ifs with h7
  · rw [h, h7, bit7]
  · simp [getLsbD_low7 b hk, h7]

/-! ## One unpacked group -/

@[simp] theorem length_restoreFrom (mask : Byte) (j : Nat) (ds : List Byte) : (restoreFrom mask j ds).length = ds.length := by
  induction ds generalizing j with
  | nil => rfl
  | cons d ds ih => simp [restoreFrom, ih]

theorem getElem?_restoreFrom (mask : Byte) (i k : Nat) (ds : List Byte) :
    (restoreFrom mask i ds)[k]? = ds[k]?.map (restoreBit7 mask (i + k)) := by
  induction ds generalizing i k with
  | nil => rfl
  | cons d ds ih =>
    cases k with
    | zero => rfl
    | succ k => rw [restoreFrom, List.getElem?_cons_succ, ih, List.getElem?_cons_succ, Nat.add_right_comm, Nat.add_assoc]

@[simp] theorem length_unpackGroup (p : List Byte) : (unpackGroup p).length = p.length - 1 := by
  cases p with
  | nil => rfl
  | cons mask ds => simp [unpackGroup]

theorem getElem?_unpackGroup (p : List Byte) (j : Nat) :
    (unpackGroup p)[j]? = p[j + 1]?.map (restoreBit7 (p.getD 0 0) j) := by
  cases p with
  | nil => rfl
  | cons mask ds => rw [unpackGroup, getElem?_restoreFrom, Nat.zero_add]; rfl

/-- A group of up to 8 bytes unpacks to the bytes it was packed of (R106). -/
theorem unpackGroup_packGroup {run : List Byte} (h : run.length ≤ 8) : unpackGroup (packGroup run) = run := by
  refine List.ext_getElem? fun j => ?_
  rw [packGroup, unpackGroup, getElem?_restoreFrom, List.getElem?_map, Option.map_map]
  rcases Nat.lt_or_ge j run.length with hj | hj
  · rw [List.getElem?_eq_getElem hj, Option.map_some, Function.comp_apply, restoreBit7_low7]
    rw [getLsbD_maskFrom, List.getD_eq_getElem _ _ (by omega), decide_eq_true (by omega)]
    simp
  · rw [List.getElem?_eq_none hj, Option.map_none]

/-! ## The unpacked groups in a row -/

@[simp] theorem unpackGroups_nil (n : Nat) : unpackGroups n [] = [] := by
  cases n <;> rfl

/-- What is left to unpack starts with a group of up to 8. -/
theorem unpackGroups_eq {n : Nat} {p : List Byte} (h0 : 0 < p.length) (hn : p.length ≤ n) :
    unpackGroups n p = unpackGroup (p.take 8) ++ unpackGroups (n - 1) (p.drop 8) := by
  obtain ⟨m, rfl⟩ := Nat.exists_eq_succ_of_ne_zero (h0.trans_le hn).ne'
  match p with
  | _ :: _ => rfl

/-- The unpacked length (R105). -/
theorem length_unpackGroups {n : Nat} {p : List Byte} (hn : p.length ≤ n) :
    (unpackGroups n p).length = unpackedSize p.length := by
  induction n generalizing p with
  | zero => simp_all [unpackedSize]
  | succ n ih =>
    rcases Nat.eq_zero_or_pos p.length with h0 | h0
    · simp_all [unpackedSize]
    · have hrest : (p.drop 8).length ≤ n := by rw [List.length_drop]; omega
      rw [unpackGroups_eq h0 hn, List.length_append, Nat.add_sub_cancel, ih hrest, length_unpackGroup,
        List.length_take, List.length_drop]
      unfold unpackedSize
      split_ifs <;> omega

/-- The 7 bytes from `7g` on are the group unpacked of the packed bytes from `8g` on (R104). -/
theorem getElem?_unpackGroups {n g j : Nat} {p : List Byte} (hn : p.length ≤ n) (hg : 8 * g + 1 + j < p.length)
    (hj : j < 7) : (unpackGroups n p)[7 * g + j]? = (unpackGroup ((p.drop (8 * g)).take 8))[j]? := by
  induction g generalizing n p with
  | zero =>
    rw [unpackGroups_eq (Nat.zero_lt_of_lt hg) hn, Nat.mul_zero, Nat.zero_add, List.getElem?_append_left, List.drop_zero]
    rw [length_unpackGroup, List.length_take]
    omega
  | succ g ih =>
    have hlen : (unpackGroup (p.take 8)).length = 7 := by
      rw [length_unpackGroup, List.length_take]; omega
    have hn' : (p.drop 8).length ≤ n - 1 := by rw [List.length_drop]; omega
    have hg' : 8 * g + 1 + j < (p.drop 8).length := by rw [List.length_drop]; omega
    rw [unpackGroups_eq (Nat.zero_lt_of_lt hg) hn, List.getElem?_append_right (by omega), hlen,
      show 7 * (g + 1) + j - 7 = 7 * g + j by omega, ih hn' hg', List.drop_drop, show 8 + 8 * g = 8 * (g + 1) by omega]

theorem unpackedSize_packedSize (n : Nat) : unpackedSize (packedSize n) = n := by
  unfold packedSize unpackedSize
  split_ifs <;> omega

/-- Settles O26: the 7 bytes from `7g` on are the unpacked group of the packed bytes from `8g` on. -/
theorem unpackedByteAt : Obligations.UnpackedByteAt := by
  refine ⟨fun p => length_unpackGroups le_rfl, fun _ => rfl, unpackedSize_packedSize, fun p g j hj hlt => ?_⟩
  rw [unpack8to7, getElem?_unpackGroups le_rfl hlt hj, getElem?_unpackGroup]
  rw [List.getElem?_take_of_lt (by omega), List.getElem?_drop, List.getD_eq_getElem?_getD,
    List.getElem?_take_of_lt (by omega), List.getElem?_drop, ← List.getD_eq_getElem?_getD,
    show 8 * g + (j + 1) = 8 * g + 1 + j by omega, List.getElem?_eq_getElem hlt, Option.map_some, List.getD_eq_getElem _ _ hlt]
  rfl

/-! ## The round trip -/

/-- Groups packed and unpacked again, one by one (R106). -/
theorem unpackGroups_packGroups {n m : Nat} {xs : List Byte} (hn : xs.length ≤ n) (hm : (packGroups n xs).length ≤ m) :
    unpackGroups m (packGroups n xs) = xs := by
  induction n generalizing m xs with
  | zero => simp_all [packGroups]
  | succ n ih =>
    rcases Nat.eq_zero_or_pos xs.length with h0 | h0
    · simp [List.eq_nil_of_length_eq_zero h0]
    have hrest : (xs.drop 7).length ≤ n := by rw [List.length_drop]; omega
    have hfirst : (xs.take 7).length ≤ 7 := List.length_take_le ..
    rw [packGroups_eq h0 hn, Nat.add_sub_cancel] at hm ⊢
    rw [List.length_append, length_packGroup] at hm
    rw [unpackGroups_eq (by simp) (by simpa using hm)]
    rcases Nat.lt_or_ge xs.length 7 with hshort | hfull
    · have hlen : (packGroup xs).length ≤ 8 := by rw [length_packGroup]; omega
      rw [List.take_of_length_le hshort.le, List.drop_eq_nil_of_le hshort.le, packGroups_nil, List.append_nil,
        List.take_of_length_le hlen, List.drop_eq_nil_of_le hlen, unpackGroups_nil, List.append_nil,
        unpackGroup_packGroup (by omega)]
    · have hlen : (packGroup (xs.take 7)).length = 8 := by
        rw [length_packGroup, List.length_take]; omega
      rw [List.take_left' hlen, List.drop_left' hlen, unpackGroup_packGroup (by omega), ih hrest (by omega),
        List.take_append_drop]

/-- What was packed of an array comes back (R106). -/
theorem unpack8to7_pack7to8 (raw : List Byte) : unpack8to7 (pack7to8 raw) = raw.take (packLen raw) :=
  unpackGroups_packGroups (length_take_packLen raw).le le_rfl

/-- Settles O27: what was packed comes back, and that is the whole array where no early sentinel stands. -/
theorem packUnpackRoundTrip : Obligations.PackUnpackRoundTrip :=
  ⟨unpack8to7_pack7to8, fun raw h => by
    rw [unpack8to7_pack7to8, (noEarlySentinel_iff raw).mp h, List.take_length]⟩

/-! ## The checksum -/

/-- Settles O28: the sum mod 128 fits a byte. -/
theorem checksumOfPayload : Obligations.ChecksumOfPayload := by
  refine ⟨fun p => ?_, rfl, by decide⟩
  rw [cks, BitVec.toNat_ofNat, byteSum]
  omega

end Sys2Proof.Machine
end

section
/-! PROOF. What the standalone commands do (R108 to R110, R112 to R114), and the array the unpacker streams (R115). -/

namespace Sys2Proof.Machine

/-! ## One command of the packer -/

/-- The bytes of the open group, mask byte first; none where the group is empty (R108). -/
def openGroupBytes (s : State) : List Byte :=
  if s.pkCnt = 0 then [] else s.pkMask.setWidth 8 :: (s.pkGrp.toList.take s.pkCnt.val).map low7

/-- `PkEmit` on the open group (R108). -/
theorem pkEmit_pkCnt (s : State) :
    pkEmit s.pkCnt.val s = { s with out := s.out ++ openGroupBytes s, pkCnt := 0, pkMask := 0x00 } := by
  by_cases h : s.pkCnt = 0
  · simp [pkEmit, openGroupBytes, h]
  · have hpos : 0 < s.pkCnt.val := Nat.pos_of_ne_zero (Fin.val_ne_zero_iff.mpr h)
    simp [pkEmit, openGroupBytes, emit, h, hpos]

/-- `PKCNT` is an index of `PKGRP` (R38), so `PkAdd`'s write is never out of bounds. -/
theorem pkGrp_set_eq (v : Vector Byte 7) {k : Nat} (b : Byte) (h : k < 7) : v.set k b h = v.setIfInBounds k b := by
  ext j hj
  rw [Vector.getElem_set, Vector.getElem_setIfInBounds]

/-- The bytes of a group and the byte written after them. -/
theorem take_setIfInBounds (v : Vector Byte 7) {k : Nat} (b : Byte) (h : k < 7) :
    (v.setIfInBounds k b).toList.take (k + 1) = v.toList.take k ++ [b] := by
  have hlen : (v.toList.take k).length = k := by rw [List.length_take, Vector.length_toList]; omega
  rw [Vector.toList_setIfInBounds, List.set_eq_take_append_cons_drop, Vector.length_toList, if_pos h,
    List.append_cons, List.take_left' (by rw [List.length_append, hlen, List.length_singleton])]

/-- `PkAdd` on a group with room (R108). -/
theorem pkAdd_open (b : Byte) {s : State} (h : s.pkCnt.val + 1 < 7) : pkAdd b s = { s with
    pkGrp := s.pkGrp.setIfInBounds s.pkCnt.val b
    pkMask := if bit7 b then s.pkMask ||| (1#7 <<< s.pkCnt.val) else s.pkMask
    pkCnt := ⟨s.pkCnt.val + 1, h⟩ } := by
  rw [pkAdd, dif_pos h, pkGrp_set_eq]

/-- `PkAdd` of the seventh byte of a group, which is emitted (R108). -/
theorem pkAdd_full (b : Byte) {s : State} (h : s.pkCnt.val = 6) : pkAdd b s = { s with
    out := s.out ++ (if bit7 b then s.pkMask ||| 0x40 else s.pkMask).setWidth 8 ::
      (s.pkGrp.toList.take 6 ++ [b]).map low7
    pkGrp := s.pkGrp.setIfInBounds 6 b
    pkCnt := 0, pkMask := 0x00 } := by
  rw [pkAdd, dif_neg (by omega)]
  simp [pkEmit, emit, pkGrp_set_eq, h, ← take_setIfInBounds]

/-- `PkAdd` does not touch `PKFEP` (R108). -/
theorem pkAdd_fep (b : Byte) (s : State) : (pkAdd b s).pkFep = s.pkFep := by
  by_cases h : s.pkCnt.val + 1 < 7
  · rw [pkAdd_open b h]
  · rw [pkAdd_full b (by omega)]

/-- A stopped packer drops the byte (R109). -/
theorem pkPush_stopped (b : Byte) {s : State} (h : s.pkStop = true) : pkPush b s = s := by
  rw [pkPush, if_pos h]

/-- A byte that confirms a terminator closes the open group and stops the packer (R109). -/
theorem pkPush_terminator {b : Byte} {s : State} (hs : s.pkStop = false) (hf : s.pkFep = true) (hb : b ≠ Config.sentinel) :
    pkPush b s = { s with
      out := s.out ++ openGroupBytes s, pkCnt := 0, pkMask := 0x00, pkStop := true, pkFep := false } := by
  simp [pkPush, hs, hf, hb, pkEmit_pkCnt]

/-- Any other byte joins the group, and an unpaired 0xFE is pending after it (R109). -/
theorem pkPush_joins {b : Byte} {s : State} (hs : s.pkStop = false) (h : s.pkFep = true → b = Config.sentinel) :
    pkPush b s = { pkAdd b s with pkFep := !s.pkFep && (b == Config.sentinel) } := by
  cases hf : s.pkFep with
  | true => simp [pkPush, hs, hf, h hf]
  | false =>
    by_cases hb : b = Config.sentinel
    · simp [pkPush, hs, hf, hb]
    · have hfep : (pkAdd b s).pkFep = (b == Config.sentinel) := by rw [pkAdd_fep, hf, beq_false_of_ne hb]
      simp [pkPush, hs, hf, hb, ← hfep]

theorem exec_pkPush (b : Byte) (s : State) : exec (.pkPush b) s = .next (pkPush b s) := rfl

theorem exec_pkFlush (imm : Byte) (s : State) : exec (.pkFlush imm) s = .next (pkFlush s) := rfl

/-- Settles O29: a push to a stopped packer, one that stops it, and one that joins a group with room or fills it. -/
theorem pkPushEffect : Obligations.PkPushEffect := by
  refine fun b s => ⟨fun hs => ?stopped, fun hs hf hb => ?terminator, fun hs hf h => ?hasRoom, fun hs hf h => ?full⟩
  all_goals rw [exec_pkPush]
  case stopped => rw [pkPush_stopped b hs]
  case terminator => rw [pkPush_terminator hs hf hb]; rfl
  case hasRoom => rw [pkPush_joins hs hf, pkAdd_open b h]; rfl
  case full => rw [pkPush_joins hs hf, pkAdd_full b h]; rfl

/-- PK_FLUSH emits the open group and re-arms the packer (R110). -/
theorem pkFlush_eq (s : State) : pkFlush s = { s with
    out := s.out ++ openGroupBytes s, pkCnt := 0, pkMask := 0x00, pkFep := false, pkStop := false } := by
  rw [pkFlush, pkEmit_pkCnt]

/-- Settles O30: `PkEmit` on the open group, with the two flags cleared. -/
theorem pkFlushEffect : Obligations.PkFlushEffect := fun imm s => by
  rw [exec_pkFlush, pkFlush_eq]; rfl

/-! ## One command of the unpacker -/

/-- At the start of a group the byte is the mask (R112). -/
theorem upPush_mask (b : Byte) {s : State} (h : s.upIdx = 0) : upPush b s = { s with upMask := b, upIdx := 1 } := by
  simp [upPush, unpackStep, h, emit]

/-- Elsewhere one raw byte is emitted, and `UPIDX` moves on, from 7 to 0 (R112). -/
theorem upPush_data (b : Byte) {s : State} (h : s.upIdx ≠ 0) : upPush b s = { s with
    out := s.out ++ [restoreBit7 s.upMask (s.upIdx.toNat - 1) b]
    upIdx := if s.upIdx = 7 then 0 else s.upIdx + 1 } := by
  rw [upPush, unpackStep, if_neg h]
  rfl

theorem exec_upPush (b : Byte) (s : State) : exec (.upPush b) s = .next (upPush b s) := rfl

theorem exec_upFlush (imm : Byte) (s : State) : exec (.upFlush imm) s = .next (upFlush s) := rfl

/-- Settles O31: a mask byte at the start of a group, a data byte elsewhere. -/
theorem upPushEffect : Obligations.UpPushEffect := by
  intro b s
  by_cases h : s.upIdx = 0
  · rw [exec_upPush, upPush_mask b h, if_pos h]
  · rw [exec_upPush, upPush_data b h, if_neg h]; rfl

/-- Settles O32: UP_FLUSH is its two writes (R114). -/
theorem upFlushEffect : Obligations.UpFlushEffect := exec_upFlush

/-! ## Running a list of pushes -/

theorem execAll_append {is js : List Instr} {s t : State} (h : execAll is s = .next t) :
    execAll (is ++ js) s = execAll js t := by
  induction is generalizing s with
  | nil => cases h; rfl
  | cons i is ih =>
    simp only [List.cons_append, execAll] at h ⊢
    split at h
    next u hu => exact ih h
    all_goals cases h

/-- Commands that always complete run as a fold of what each does. -/
theorem execAll_map {f : Byte → Instr} {g : Byte → State → State} (h : ∀ b s, exec (f b) s = .next (g b s))
    (bs : List Byte) (s : State) : execAll (bs.map f) s = .next (bs.foldl (fun t b => g b t) s) := by
  induction bs generalizing s with
  | nil => rfl
  | cons b bs ih => rw [List.map_cons, execAll, h]; exact ih _

/-! ## The streaming unpacker -/

/-- The data bytes of a group, from its data byte `j` on, are emitted one by one (R112). -/
theorem foldl_upPush_data {j : Nat} (ds : List Byte) {s : State} (hj : j + ds.length ≤ 7)
    (hidx : s.upIdx = BitVec.ofNat 3 (j + 1)) :
    ds.foldl (fun t b => upPush b t) s = { s with
      out := s.out ++ restoreFrom s.upMask j ds, upIdx := BitVec.ofNat 3 (j + 1 + ds.length) } := by
  induction ds generalizing j s with
  | nil => simp [restoreFrom, ← hidx]
  | cons d ds ih =>
    rw [List.length_cons] at hj
    have hnat : s.upIdx.toNat = j + 1 := by rw [hidx, BitVec.toNat_ofNat]; omega
    have hne : s.upIdx ≠ 0 := fun h0 => by simp [h0] at hnat
    have hnext : (if s.upIdx = 7 then 0 else s.upIdx + 1) = BitVec.ofNat 3 (j + 1 + 1) := by
      rw [BitVec.ofNat_add, ← hidx]
      split_ifs with h7
      · rw [h7]; rfl
      · rfl
    have hlen : j + 1 + (d :: ds).length = j + 1 + 1 + ds.length := by rw [List.length_cons]; omega
    rw [List.foldl_cons, upPush_data d hne, hnext, ih (by omega) rfl, restoreFrom, hnat, hlen]
    simp

/-- A group of up to 8 bytes, from its mask byte on. -/
theorem foldl_upPush_group {p : List Byte} {s : State} (h0 : 0 < p.length) (hlen : p.length ≤ 8) (hidx : s.upIdx = 0) :
    p.foldl (fun t b => upPush b t) s = { s with
      out := s.out ++ unpackGroup p, upMask := p.getD 0 0, upIdx := BitVec.ofNat 3 p.length } := by
  cases p with
  | nil => simp at h0
  | cons mask ds =>
    rw [List.length_cons] at hlen
    rw [List.foldl_cons, upPush_mask mask hidx, foldl_upPush_data (j := 0) ds (by omega) rfl]
    simp [unpackGroup, Nat.add_comm 1]

/-- The groups of an array, each from `UPIDX = 0` on (R115). -/
theorem foldl_upPush {n : Nat} {p : List Byte} {s : State} (hn : p.length ≤ n) (hidx : 0 < p.length → s.upIdx = 0) :
    ∃ m i, p.foldl (fun t b => upPush b t) s = { s with out := s.out ++ unpackGroups n p, upMask := m, upIdx := i } := by
  induction n generalizing p s with
  | zero =>
    obtain rfl : p = [] := List.eq_nil_of_length_eq_zero (Nat.le_zero.mp hn)
    exact ⟨s.upMask, s.upIdx, by simp⟩
  | succ n ih =>
    rcases Nat.eq_zero_or_pos p.length with h0 | h0
    · obtain rfl := List.eq_nil_of_length_eq_zero h0
      exact ⟨s.upMask, s.upIdx, by simp⟩
    have hgroup := foldl_upPush_group (p := p.take 8) (by rw [List.length_take]; omega) (List.length_take_le ..) (hidx h0)
    have hnext : 0 < (p.drop 8).length → BitVec.ofNat 3 (p.take 8).length = 0 := by
      intro h
      rw [List.length_drop] at h
      rw [List.length_take_of_le (by omega)]
      rfl
    have hsplit (t : State) : p.foldl (fun t b => upPush b t) t =
        (p.drop 8).foldl (fun t b => upPush b t) ((p.take 8).foldl (fun t b => upPush b t) t) := by
      rw [← List.foldl_append, List.take_append_drop]
    simp only [hsplit, hgroup, unpackGroups_eq h0 hn, ← List.append_assoc]
    exact ih (by rw [List.length_drop]; omega) hnext

/-- Settles O34: the groups of the array, and the flush. -/
theorem unpackerStreamsUnpack8to7 : Obligations.UnpackerStreamsUnpack8to7 := by
  intro p imm s hidx
  obtain ⟨m, i, hfold⟩ := foldl_upPush (Nat.le_refl p.length) (fun _ => hidx)
  rw [execAll_append (execAll_map exec_upPush p s), hfold]
  simp only [execAll, exec_upFlush, upFlush, unpack8to7, hidx]

end Sys2Proof.Machine
end

section
/-! PROOF. The streaming packer (R108 to R111): what it has taken is in OUT as full groups, and the rest is its open group. -/

namespace Sys2Proof.Machine

/-! ## All groups of a list -/

/-- The packed groups of a list, all of them (R101). -/
def packAll (xs : List Byte) : List Byte := packGroups xs.length xs

/-- More groups than the list holds make no difference. -/
theorem packGroups_congr {n m : Nat} {xs : List Byte} (hn : xs.length ≤ n) (hm : xs.length ≤ m) :
    packGroups n xs = packGroups m xs := by
  induction n generalizing m xs with
  | zero => simp [List.eq_nil_of_length_eq_zero (Nat.le_zero.mp hn)]
  | succ n ih =>
    rcases Nat.eq_zero_or_pos xs.length with h0 | h0
    · simp [List.eq_nil_of_length_eq_zero h0]
    · rw [packGroups_eq h0 hn, packGroups_eq h0 hm, Nat.add_sub_cancel,
        ih (m := m - 1) (by rw [List.length_drop]; omega) (by rw [List.length_drop]; omega)]

theorem packGroups_eq_packAll {n : Nat} {xs : List Byte} (hn : xs.length ≤ n) : packGroups n xs = packAll xs :=
  packGroups_congr hn le_rfl

/-- The packed form is the groups of what the scan takes (R101). -/
theorem pack7to8_eq_packAll (raw : List Byte) : pack7to8 raw = packAll (raw.take (packLen raw)) :=
  packGroups_eq_packAll (length_take_packLen raw).le

@[simp] theorem packAll_nil : packAll [] = [] := rfl

/-- A list starts with a group of up to 7. -/
theorem packAll_eq {xs : List Byte} (h0 : 0 < xs.length) : packAll xs = packGroup (xs.take 7) ++ packAll (xs.drop 7) := by
  rw [packAll, packGroups_eq h0 le_rfl, packGroups_eq_packAll (by rw [List.length_drop]; omega)]

/-- After full groups a new group begins. -/
theorem packAll_append {zs : List Byte} (h : 7 ∣ zs.length) (run : List Byte) :
    packAll (zs ++ run) = packAll zs ++ packAll run := by
  obtain ⟨k, hk⟩ := h
  induction k generalizing zs with
  | zero => simp [List.eq_nil_of_length_eq_zero hk]
  | succ k ih =>
    rw [packAll_eq (xs := zs) (by omega), packAll_eq (by rw [List.length_append]; omega),
      List.take_append_of_le_length (by omega), List.drop_append_of_le_length (by omega),
      ih (by rw [List.length_drop]; omega), List.append_assoc]

/-- Up to 7 bytes are one group. -/
theorem packAll_group {run : List Byte} (h0 : 0 < run.length) (h7 : run.length ≤ 7) : packAll run = packGroup run := by
  rw [packAll_eq h0, List.take_of_length_le h7, List.drop_eq_nil_of_le h7, packAll_nil, List.append_nil]

/-! ## The mask of the open group -/

/-- One more byte in a group sets its own mask bit only (R75). -/
theorem maskFrom_append (i : Nat) (run : List Byte) (b : Byte) :
    maskFrom i (run ++ [b]) = maskFrom i run ||| (if bit7 b then 1#8 <<< (i + run.length) else 0x00) := by
  induction run generalizing i with
  | nil => simp [maskFrom, BitVec.or_comm]
  | cons c run ih =>
    rw [List.cons_append, maskFrom, ih, maskFrom, BitVec.or_assoc, List.length_cons, Nat.add_right_comm, Nat.add_assoc]

/-- `PkAdd`'s mask, as the packed group has it (R75, R108). -/
theorem setWidth_groupMask {m : BitVec 7} {run : List Byte} {b : Byte} (hlen : run.length < 7)
    (hm : m.setWidth 8 = maskFrom 0 run) :
    (if bit7 b then m ||| (1#7 <<< run.length) else m).setWidth 8 = maskFrom 0 (run ++ [b]) := by
  have hbit : (1#7 <<< run.length).setWidth 8 = 1#8 <<< run.length := by
    generalize run.length = k at hlen
    revert k
    decide
  rw [maskFrom_append, ← hm, Nat.zero_add]
  split_ifs
  · rw [BitVec.setWidth_or, hbit]
  · exact BitVec.or_zero.symm

/-! ## What a running packer holds -/

/-- The packer of `t`, started empty in `s`, has emitted `zs` in full groups and holds `run` in its open group (R108);
nothing else has changed. -/
structure Packing (s : State) (zs run : List Byte) (t : State) : Prop where
  running : t.pkStop = false
  full : 7 ∣ zs.length
  cnt : t.pkCnt.val = run.length
  mask : t.pkMask.setWidth 8 = maskFrom 0 run
  grp : t.pkGrp.toList.take run.length = run
  out : t.out = s.out ++ packAll zs
  frame : { t with
    pkGrp := s.pkGrp, pkCnt := s.pkCnt, pkMask := s.pkMask, pkFep := s.pkFep, pkStop := s.pkStop, out := s.out } = s

/-- The packer of `t`, started empty in `s`, has taken the bytes `ys`. -/
def Streamed (s : State) (ys : List Byte) (t : State) : Prop := ∃ zs run, zs ++ run = ys ∧ Packing s zs run t

/-- `s` with the groups of `ys` emitted and the packer empty. -/
def packed (s : State) (ys : List Byte) (g : Vector Byte 7) : State := { s with
  out := s.out ++ packAll ys, pkGrp := g, pkCnt := 0, pkMask := 0x00, pkFep := false, pkStop := false }

theorem Packing.openGroupBytes {s t : State} {zs run : List Byte} (h : Packing s zs run t) :
    openGroupBytes t = packAll run := by
  have hlt : run.length < 7 := h.cnt ▸ t.pkCnt.isLt
  unfold Machine.openGroupBytes
  split_ifs with h0
  · rw [List.eq_nil_of_length_eq_zero (h.cnt.symm.trans (congrArg Fin.val h0)), packAll_nil]
  · have hpos : 0 < run.length := h.cnt ▸ Nat.pos_of_ne_zero (Fin.val_ne_zero_iff.mpr h0)
    rw [packAll_group hpos hlt.le, h.cnt, h.grp, h.mask, packGroup]

/-- PK_FLUSH emits what is still open (R110). -/
theorem Streamed.flush {s t : State} {ys : List Byte} (h : Streamed s ys t) : pkFlush t = packed s ys t.pkGrp := by
  obtain ⟨zs, run, rfl, hp⟩ := h
  rw [pkFlush_eq, hp.openGroupBytes, hp.out, List.append_assoc, ← packAll_append hp.full]
  exact congrArg (packed · (zs ++ run) t.pkGrp) hp.frame

/-- `PkAdd` takes one byte more, into the open group or as the last of it (R108). -/
theorem Streamed.add {s t : State} {ys : List Byte} (h : Streamed s ys t) (b : Byte) : Streamed s (ys ++ [b]) (pkAdd b t) := by
  obtain ⟨zs, run, rfl, hp⟩ := h
  have hlt : run.length < 7 := hp.cnt ▸ t.pkCnt.isLt
  have hmask := setWidth_groupMask (b := b) hlt hp.mask
  by_cases hroom : t.pkCnt.val + 1 < 7
  · refine ⟨zs, run ++ [b], (List.append_assoc ..).symm, ?_⟩
    rw [pkAdd_open b hroom]
    have hgrp : (t.pkGrp.setIfInBounds t.pkCnt.val b).toList.take (run ++ [b]).length = run ++ [b] := by
      rw [hp.cnt, List.length_append, List.length_singleton, take_setIfInBounds _ b hlt, hp.grp]
    rw [← hp.cnt] at hmask
    exact ⟨hp.running, hp.full, by simp [hp.cnt], hmask, hgrp, hp.out, hp.frame⟩
  · refine ⟨zs ++ run ++ [b], [], List.append_nil _, ?_⟩
    have h6 : run.length = 6 := by have := hp.cnt; omega
    have hgrp : t.pkGrp.toList.take 6 = run := by rw [← h6]; exact hp.grp
    have hgroup : (if bit7 b then t.pkMask ||| 0x40 else t.pkMask).setWidth 8 ::
        (t.pkGrp.toList.take 6 ++ [b]).map low7 = packAll (run ++ [b]) := by
      rw [packAll_group (by simp) (by simp [h6]), packGroup, ← hmask, h6, hgrp]
      rfl
    rw [pkAdd_full b (hp.cnt.trans h6)]
    refine ⟨hp.running, ?full, rfl, rfl, rfl, ?out, hp.frame⟩
    case full =>
      rw [List.append_assoc, List.length_append, List.length_append, h6]
      exact Nat.dvd_add hp.full (Nat.dvd_refl 7)
    case out =>
      rw [List.append_assoc, packAll_append hp.full, ← hgroup, hp.out, List.append_assoc]

/-- The pending flag is not part of what is packed. -/
theorem Streamed.withFep {s t : State} {ys : List Byte} (h : Streamed s ys t) (f : Bool) :
    Streamed s ys { t with pkFep := f } := by
  obtain ⟨zs, run, hys, hp⟩ := h
  exact ⟨zs, run, hys, ⟨hp.running, hp.full, hp.cnt, hp.mask, hp.grp, hp.out, hp.frame⟩⟩

theorem Streamed.running {s t : State} {ys : List Byte} (h : Streamed s ys t) : t.pkStop = false :=
  h.elim fun _ ⟨_, _, hp⟩ => hp.running

/-- A byte that joins the group is taken (R109). -/
theorem Streamed.push {s t : State} {ys : List Byte} {b : Byte} (h : Streamed s ys t)
    (hb : t.pkFep = true → b = Config.sentinel) : Streamed s (ys ++ [b]) (pkPush b t) := by
  rw [pkPush_joins h.running hb]
  exact (h.add b).withFep _

/-- The pending flag after a byte that joins the group (R109). -/
theorem Streamed.push_fep {s t : State} {ys : List Byte} {b : Byte} (h : Streamed s ys t)
    (hb : t.pkFep = true → b = Config.sentinel) : (pkPush b t).pkFep = (!t.pkFep && (b == Config.sentinel)) := by
  rw [pkPush_joins h.running hb]

/-! ## Pushing an array -/

/-- After the stop every byte is dropped (R109). -/
theorem foldl_pkPush_stopped (x : List Byte) {s : State} (h : s.pkStop = true) : x.foldl (fun t b => pkPush b t) s = s := by
  induction x with
  | nil => rfl
  | cons b x ih => rw [List.foldl_cons, pkPush_stopped b h, ih]

/-- The byte that confirms a terminator emits what PK_FLUSH would have, and leaves it nothing (R109, R110). -/
theorem pkFlush_pkPush_terminator {c : Byte} {s : State} (hs : s.pkStop = false) (hf : s.pkFep = true)
    (hc : c ≠ Config.sentinel) : pkFlush (pkPush c s) = pkFlush s := by
  rw [pkPush_terminator hs hf hc, pkFlush_eq, pkFlush_eq]
  simp [openGroupBytes]

/-- An array pushed and flushed is packed as far as its scan goes (R111). -/
theorem Streamed.flush_foldl {s t : State} {ys x : List Byte} (h : Streamed s ys t) (hf : t.pkFep = false) :
    ∃ g, pkFlush (x.foldl (fun t b => pkPush b t) t) = packed s (ys ++ x.take (packLen x)) g := by
  -- with no 0xFE pending every byte joins
  have joins {u : State} (b : Byte) (hu : u.pkFep = false) : u.pkFep = true → b = Config.sentinel := by simp [hu]
  induction x using packLen.induct generalizing ys t with
  | case1 => exact ⟨_, by simpa using h.flush⟩
  | case2 b => exact ⟨_, (h.push (joins b hf)).flush⟩
  | case3 rest ih =>
    have h1 := h.push (joins Config.sentinel hf)
    have hf1 := h.push_fep (joins Config.sentinel hf)
    have h2 := h1.push (b := Config.sentinel) fun _ => rfl
    have hf2 := h1.push_fep (b := Config.sentinel) fun _ => rfl
    rw [packLen_pair]
    simpa using ih h2 (by simp [hf2, hf1, hf])
  | case4 c rest hc =>
    have h1 := h.push (joins Config.sentinel hf)
    have hf1 : (pkPush Config.sentinel t).pkFep = true := by simp [h.push_fep (joins _ hf), hf]
    have hstop : (pkPush c (pkPush Config.sentinel t)).pkStop = true := by rw [pkPush_terminator h1.running hf1 hc]
    rw [packLen_terminator hc, List.foldl_cons, List.foldl_cons, foldl_pkPush_stopped rest hstop,
      pkFlush_pkPush_terminator h1.running hf1 hc]
    exact ⟨_, h1.flush⟩
  | case5 b c rest hb ih =>
    have hf1 := h.push_fep (joins b hf)
    rw [packLen_cons_of_ne hb]
    simpa using ih (h.push (joins b hf)) (by simp [hf1, hb])

/-- No mask is left over without a group (R42). -/
theorem Invariants.pkMask_eq_zero {s : State} (hi : Invariants s) (hc : s.pkCnt = 0) : s.pkMask = 0x00 := by
  have hlt := hi.pkMaskBits
  rw [hc] at hlt
  exact BitVec.eq_of_toNat_eq (Nat.lt_one_iff.mp hlt)

/-- An empty packer has taken nothing. -/
theorem streamed_nil {s : State} (hc : s.pkCnt = 0) (hm : s.pkMask = 0x00) (hs : s.pkStop = false) : Streamed s [] s :=
  ⟨[], [], rfl, ⟨hs, Nat.dvd_zero _, congrArg Fin.val hc, by rw [hm]; rfl, rfl, (List.append_nil _).symm, rfl⟩⟩

/-- Settles O33: the array pushed and flushed, from a packer that has taken nothing. -/
theorem packerStreamsPack7to8 : Obligations.PackerStreamsPack7to8 := by
  intro x imm s hi hc hf hs
  have hm := hi.pkMask_eq_zero hc
  obtain ⟨g, hg⟩ := (streamed_nil hc hm hs).flush_foldl (x := x) hf
  refine ⟨g, ?_⟩
  rw [execAll_append (execAll_map exec_pkPush x s), execAll, exec_pkFlush, hg, List.nil_append, pack7to8_eq_packAll]
  simp only [execAll, packed, hc, hm, hf, hs]

end Sys2Proof.Machine
end

section
/-! PROOF. The encode commands that build the document: TX_OPEN (R137), TX_PUSH (R138), TX_EMIT_END (R139) and TX_CLOSE
(R140). -/

namespace Sys2Proof.Machine

/-! ## A session command by its body (R215) -/

/-- A session command whose body goes on gives the body's state. -/
theorem exec_session_ok {i : Instr} {c : Ctl} {s t : State} (hi : legalIn i = some c) (hc : s.ctl = c)
    (hb : sessionBody i s = .ok t) : exec i s = .next t := by
  rw [exec_session hi, runSession_legal (legalIn_ne_err hi) hc, hb, finish]

/-- A session command whose body raises an error takes its error entry. -/
theorem exec_session_raise {i : Instr} {c : Ctl} {s : State} {k : ErrKind} (hi : legalIn i = some c) (hc : s.ctl = c)
    (hb : sessionBody i s = .error (.raise k)) : exec i s = .next (errorEntry k (encode i) s) := by
  rw [exec_session hi, runSession_legal (legalIn_ne_err hi) hc, hb, finish]

/-- A session command outside its `STATE` raises CommandError (R212). -/
theorem exec_session_illegal {i : Instr} {c : Ctl} {s : State} (hi : legalIn i = some c) (hc : s.ctl ≠ c)
    (he : s.ctl ≠ .err) : exec i s = .next (errorEntry .command (encode i) s) :=
  (exec_session hi s).trans (runSession_illegal he hc)

/-! ## TX_OPEN -/

/-- The FCB is the template (R130). -/
theorem fcbBytes_eq_template (p : BuiltParams) : fcbBytes p = p.fcbTemplate.toList :=
  List.ext_getElem (by simp [fcbBytes]) fun j _ _ => by
    simp only [fcbBytes, List.getElem_ofFn, Fin.getElem_fin, Vector.getElem_toList]

@[simp] theorem opened_rawLen (s : State) : (opened s).rawLen = 40 := by simp [opened, appended, fcbBytes_length]

@[simp] theorem opened_curLen (s : State) : (opened s).curLen = 40 := by simp [opened, appended, fcbBytes_length]

@[simp] theorem opened_params (s : State) : (opened s).params = s.params := rfl

/-- The FCB of 40 bytes is followed by a padding sentinel: 41 is odd (R134). -/
theorem padNeeded_opened (s : State) : padNeeded ((opened s).curLen.toNat + 1) = 1 := by
  rw [opened_curLen]; rfl

/-- Reading after the FCB was written at 0 (R137). -/
theorem read_opened (s : State) (a : Nat) : Memory.read (opened s).doc a =
    if a < 40 then s.params.fcbTemplate.toList[a]? else Memory.read s.doc a := by
  rw [opened, read_appended, fcbBytes_length, fcbBytes_eq_template]
  simp

/-- Reading after block 0 was written and broken (R137). -/
theorem read_broken_opened (s : State) (a : Nat) : Memory.read (broken (opened s)).doc a =
    if a < 46 then
      (s.params.fcbTemplate.toList ++ [0xFE, 0xFE, s.params.pdbMarker, s.params.pdbTag, 0x00, 0x00])[a]?
    else Memory.read s.doc a := by
  have hpad := padNeeded_opened s
  have hlen : s.params.fcbTemplate.toList.length = 40 := Vector.length_toList
  have hraw : (opened s).rawLen.toNat = 40 := by rw [opened_rawLen]; rfl
  rw [read_broken _ (by rw [hraw, hpad]; decide), hraw, hpad, read_opened]
  by_cases hfcb : a < 40
  · rw [if_neg (by omega), if_pos hfcb, if_pos (by omega), List.getElem?_append_left (hfcb.trans_eq hlen.symm)]
  by_cases hbrk : a < 46
  · rw [if_pos (by omega), if_pos hbrk, List.getElem?_append_right (hlen.trans_le (not_lt.mp hfcb)), hlen]; rfl
  · rw [if_neg (by omega), if_neg hfcb, if_neg hbrk]

/-- Settles O35: the state after the FCB (`opened`) is broken once (`broken`). -/
theorem txOpenStartsEncodeSession : Obligations.TxOpenStartsEncodeSession := by
  intro imm s
  refine ⟨(broken (opened s)).doc, ?_, read_broken_opened s⟩
  rw [exec_txOpen, broken_eq, padNeeded_opened]
  simp [opened, appended, fcbBytes_length, clearSession]

/-! ## TX_PUSH and TX_CLOSE -/

/-- The state after one byte was appended, field by field (R53). -/
theorem appended_one_eq (b : Byte) (s : State) : appended [b] s =
    { s with doc := (appended [b] s).doc, rawLen := s.rawLen + 1, curLen := s.curLen + 1 } := rfl

/-- TX_PUSH with room for a byte. -/
theorem txPush_ok (b : Byte) {s : State} (h : s.rawLen.toNat < 26670) : txPush b s = .ok (appended [b] s) := by
  obtain ⟨hfull, -⟩ | ⟨-, hb⟩ | ⟨hover, -⟩ := txPush_cases b s
  · omega
  · exact hb
  · omega

/-- TX_PUSH with the document RAM full. -/
theorem txPush_full (b : Byte) {s : State} (h : s.rawLen.toNat = 26670) : txPush b s = .error (.raise .capacity) :=
  if_pos h

/-- Settles O36: with room the body is one `Append` (R53), at the cap it raises; elsewhere the command is illegal (R212). -/
theorem txPushAppendsByte : Obligations.TxPushAppendsByte := fun b s =>
  ⟨fun hc hroom => ⟨_, exec_session_ok rfl hc (txPush_ok b hroom), read_appended_one b s⟩,
    fun hc hfull => exec_session_raise rfl hc (txPush_full b hfull), exec_session_illegal rfl⟩

/-- TX_CLOSE with room for the final sentinel. -/
theorem txClose_ok {s : State} (h : s.rawLen.toNat < 26670) :
    txClose s = .ok { appended [0xFE] s with sendIdx := 0, ctl := .txClosed } := by
  obtain ⟨hfull, -⟩ | ⟨-, hb⟩ | ⟨hover, -⟩ := txClose_cases s
  · omega
  · exact hb
  · omega

/-- TX_CLOSE with the document RAM full. -/
theorem txClose_full {s : State} (h : s.rawLen.toNat = 26670) : txClose s = .error (.raise .capacity) := by
  obtain ⟨-, hb⟩ | ⟨hroom, -⟩ | ⟨hover, -⟩ := txClose_cases s
  · exact hb
  · omega
  · omega

/-- Settles O38: the final sentinel is one `Append` (R133), at the cap it raises; elsewhere the command is illegal (R212). -/
theorem txCloseEndsDocument : Obligations.TxCloseEndsDocument := fun imm s =>
  ⟨fun hc hroom => ⟨_, exec_session_ok (i := .txClose imm) rfl hc (txClose_ok hroom), read_appended_one 0xFE s⟩,
    fun hc hfull => exec_session_raise (i := .txClose imm) rfl hc (txClose_full hfull),
    exec_session_illegal (i := .txClose imm) rfl⟩

/-! ## TX_EMIT_END -/

/-- TX_EMIT_END as a command while the block is short of the limit (R139). -/
theorem exec_txEmitEnd_short (imm : Byte) {s : State} (hc : s.ctl = .txBuild) (h : s.curLen.toNat < 210) :
    exec (.txEmitEnd imm) s = .next s :=
  exec_session_ok rfl hc (if_neg (not_le.mpr h))

/-- From the limit on, the body of TX_EMIT_END is the break (R132). -/
theorem txEmitEnd_of_limit {s : State} (h : 210 ≤ s.curLen.toNat) : txEmitEnd s = breakBlock s := if_pos h

/-- A break without a block or without room for its bytes raises CapacityError (R135). -/
theorem breakBlock_full {s : State} (h : s.blkCnt.toNat = 127 ∨
    s.rawLen.toNat + 1 + padNeeded (s.curLen.toNat + 1) + 4 > 26670) : breakBlock s = .error (.raise .capacity) := by
  obtain ⟨hb, -⟩ | ⟨hblk, hraw, -⟩ := breakBlock_cases s
  · exact hb
  · omega

/-- TX_EMIT_END as a command that finds no block or no room. -/
theorem exec_txEmitEnd_full (imm : Byte) {s : State} (hc : s.ctl = .txBuild) (hlim : 210 ≤ s.curLen.toNat)
    (h : s.blkCnt.toNat = 127 ∨ s.rawLen.toNat + 1 + padNeeded (s.curLen.toNat + 1) + 4 > 26670) :
    exec (.txEmitEnd imm) s = .next (errorEntry .capacity (0x12#8 ++ imm) s) :=
  exec_session_raise (i := .txEmitEnd imm) rfl hc ((txEmitEnd_of_limit hlim).trans (breakBlock_full h))

/-- TX_EMIT_END as a command that breaks the block. -/
theorem exec_txEmitEnd_break (imm : Byte) {s : State} (hc : s.ctl = .txBuild) (hlim : 210 ≤ s.curLen.toNat)
    (hblk : s.blkCnt.toNat ≠ 127) (hraw : s.rawLen.toNat + 1 + padNeeded (s.curLen.toNat + 1) + 4 ≤ 26670) :
    exec (.txEmitEnd imm) s = .next (broken s) :=
  exec_session_ok rfl hc ((txEmitEnd_of_limit hlim).trans (breakBlock_ok hblk hraw))

/-- Settles O37: `pad` is `PadNeeded` of the length with the first sentinel (R134), and the break's state is `broken`. -/
theorem txEmitEndBreaksFullBlock : Obligations.TxEmitEndBreaksFullBlock := by
  intro imm s pad hpad
  obtain rfl : pad = padNeeded (s.curLen.toNat + 1) := hpad
  refine ⟨exec_txEmitEnd_short imm, exec_session_illegal rfl, ?blocks, ?room, ?breaks⟩
  case blocks => exact fun hc hlim hblk => exec_txEmitEnd_full imm hc hlim (.inl hblk)
  case room => exact fun hc hlim hraw => exec_txEmitEnd_full imm hc hlim (.inr hraw)
  case breaks =>
    intro hc hlim hblk hraw
    refine ⟨(broken s).doc, ?_, read_broken s hraw⟩
    rw [← broken_eq]
    exact exec_txEmitEnd_break imm hc hlim hblk hraw

end Sys2Proof.Machine
end

section
/-! PROOF. The decode commands: RX_BYTE by the parser's position (R172 to R177), RX_END (R178), and the reads of the decoded
document (R179, R180). -/

namespace Sys2Proof.Machine

/-- A session command whose body is one check gives the body's state or takes the error entry. -/
theorem exec_session_ite {i : Instr} {c : Ctl} {s t : State} {k : ErrKind} {p : Prop} [Decidable p]
    (hi : legalIn i = some c) (hc : s.ctl = c)
    (hb : sessionBody i s = if p then .ok t else .error (.raise k)) :
    exec i s = .next (if p then t else errorEntry k (encode i) s) := by
  split_ifs at hb ⊢
  · exact exec_session_ok hi hc hb
  · exact exec_session_raise hi hc hb

/-! ## RX_BYTE in the header -/

/-- Settles O43: at each position one byte is expected, and any other raises. -/
theorem rxByteChecksHeader : Obligations.RxByteChecksHeader := by
  intro b s hc
  refine ⟨fun hsub => ?waitF0, fun hsub => ?hdrMfr, fun hsub => ?hdrFunc, fun hsub => ?hdrType⟩ <;>
    refine exec_session_ite (i := .rxByte b) rfl hc ?_ <;> simp only [sessionBody, rxByte, hsub]
  case waitF0 => exact rxWaitF0_eq b s
  case hdrMfr | hdrFunc | hdrType => exact rxHeaderId_eq _ _ b s

/-- At the block index RX_BYTE is its header case (R171). -/
theorem rxByte_hdrIdx (b : Byte) {s : State} (h : s.rxSub = .hdrIdx) : rxByte b s = rxHeaderIdx b s := by
  simp only [rxByte, h]

/-- Settles O44: the three checks in R174's order, then the body opens. -/
theorem rxByteChecksIndex : Obligations.RxByteChecksIndex := by
  intro b s hc hsub
  have hb := (rxByte_hdrIdx b hsub).trans (rxHeaderIdx_eq b s)
  split_ifs at hb ⊢
  case pos | pos | pos => exact exec_session_raise (i := .rxByte b) rfl hc hb
  case neg => exact exec_session_ok rfl hc hb

/-! ## RX_BYTE in a message body -/

/-- RX_BYTE in a body that takes the byte. -/
theorem exec_rxByte_body_ok {b : Byte} {s t : State} (hc : s.ctl = .rxActive) (hsub : s.rxSub = .body)
    (h : rxBody b s = .ok t) : exec (.rxByte b) s = .next t :=
  exec_session_ok rfl hc ((rxByte_body b s hsub).trans h)

/-- RX_BYTE in a body that raises an error. -/
theorem exec_rxByte_body_raise {b : Byte} {s : State} {k : ErrKind} (hc : s.ctl = .rxActive) (hsub : s.rxSub = .body)
    (h : rxBody b s = .error (.raise k)) : exec (.rxByte b) s = .next (errorEntry k (0x21#8 ++ b) s) :=
  exec_session_raise (i := .rxByte b) rfl hc ((rxByte_body b s hsub).trans h)

/-- A data byte in a body is not 0xF7 (R82). -/
theorem ne_eox_of_lt {b : Byte} (h : b.toNat < 0x80) : b ≠ 0xF7#8 := by
  rintro rfl
  exact absurd h (by decide)

section
variable {b : Byte} {s : State} (hb : b.toNat < 0x80)
include hb

/-- The first data byte of a body is held (R175). -/
theorem rxBody_data_first (hv : s.holdV = false) : rxBody b s = .ok (heldFirst b s) := by
  simpa [hb, hb.not_ge, ne_eox_of_lt hb, hv] using rxBody_cases b s

/-- The byte held before becomes the group's mask (R175). -/
theorem rxBody_data_mask (hv : s.holdV = true) (h0 : s.rxIdx = 0) : rxBody b s = .ok { s with
    rxSum := BitVec.ofNat 7 ((s.rxSum.toNat + s.rxHold.toNat) % 128)
    rxMask := s.rxHold, rxIdx := 1, rxHold := b } := by
  simpa [hb, hb.not_ge, ne_eox_of_lt hb, hv, h0] using rxBody_cases b s

/-- The byte held before would be a raw byte past the cap (R175). -/
theorem rxBody_data_full (hv : s.holdV = true) (h0 : s.rxIdx ≠ 0#3) (hraw : s.rawLen.toNat = 26670) :
    rxBody b s = .error (.raise .capacity) := by
  simpa [hb, hb.not_ge, ne_eox_of_lt hb, hv, h0, hraw] using rxBody_cases b s

/-- The byte held before is unpacked to one raw byte, which is appended (R175). -/
theorem rxBody_data_append (hv : s.holdV = true) (h0 : s.rxIdx ≠ 0#3) (hraw : s.rawLen.toNat < 26670) :
    rxBody b s = .ok { appended [restoreBit7 s.rxMask (s.rxIdx.toNat - 1) s.rxHold] s with
      rxSum := BitVec.ofNat 7 ((s.rxSum.toNat + s.rxHold.toNat) % 128)
      rxIdx := if s.rxIdx = 7 then 0 else s.rxIdx + 1, rxHold := b } := by
  simpa [hb, hb.not_ge, ne_eox_of_lt hb, hv, h0, hraw, hraw.ne, hraw.not_gt] using rxBody_cases b s

end

/-- Settles O45: the four cases of a data byte in a body; the appended byte is R104's, read back at `RAWLEN`. -/
theorem rxByteAcceptsHeldByte : Obligations.RxByteAcceptsHeldByte := by
  intro b s hc hsub hb
  refine ⟨fun hv => ?first, fun hv h0 => ?mask, fun hv h0 hraw => ?full, fun hv h0 hraw => ?append⟩
  case first => exact exec_rxByte_body_ok hc hsub (rxBody_data_first hb hv)
  case mask => exact exec_rxByte_body_ok hc hsub (rxBody_data_mask hb hv h0)
  case full => exact exec_rxByte_body_raise hc hsub (rxBody_data_full hb hv h0 hraw)
  case append =>
    exact ⟨_, exec_rxByte_body_ok hc hsub (rxBody_data_append hb hv h0 hraw), read_appended_one _ s⟩

/-- Settles O46: the three cases of 0xF7 in a body. -/
theorem rxByteCompletesMessage : Obligations.RxByteCompletesMessage := by
  intro s hc hsub
  refine ⟨fun hv => ?empty, fun hv hsum => ?mismatch, fun hv hsum hblk => ?complete⟩
  case empty => exact exec_rxByte_body_raise hc hsub (by simpa [hv] using rxBody_cases 0xF7 s)
  case mismatch => exact exec_rxByte_body_raise hc hsub (by simpa [hv, hsum] using rxBody_cases 0xF7 s)
  case complete =>
    exact exec_rxByte_body_ok hc hsub (by simpa [hv, hsum, hblk, hblk.ne] using rxBody_cases 0xF7 s)

/-- Settles O47: no other case of the body takes such a byte. -/
theorem rxByteRejectsHighByte : Obligations.RxByteRejectsHighByte := by
  intro b s hc hsub hhigh (hne : b ≠ 0xF7#8)
  exact exec_rxByte_body_raise hc hsub (by simpa [hhigh.not_gt, hhigh, hne] using rxBody_cases b s)

/-! ## RX_END -/

/-- Settles O48: the two checks of R178 as one; elsewhere the command is illegal (R212). -/
theorem rxEndCompletesDocument : Obligations.RxEndCompletesDocument := fun imm s =>
  ⟨fun hc hsub hblk => exec_session_ok rfl hc ((rxEnd_eq s).trans (if_neg (not_or.mpr ⟨not_not.mpr hsub, hblk⟩))),
    fun hc hbad => exec_session_raise (i := .rxEnd imm) rfl hc ((rxEnd_eq s).trans (if_pos hbad)),
    exec_session_illegal (i := .rxEnd imm) rfl⟩

/-! ## RD_BYTE and RD_SKIP_BREAK -/

/-- RD_BYTE before the end of the document. -/
theorem rdByte_ok {s : State} {v : Byte} (hlt : s.rdPtr.toNat < s.rawLen.toNat) (hcap : s.rdPtr.toNat < 26670)
    (hv : Memory.read s.doc s.rdPtr.toNat = some v) :
    rdByte s = .ok { s with rdData := v, rdValid := true, rdPtr := s.rdPtr + 1 } := by
  rw [rdByte, if_pos hlt, memRead_ok hcap hv, ok_bind, pure_eq_ok]

/-- RD_BYTE at the end of the document. -/
theorem rdByte_end {s : State} (h : s.rawLen.toNat ≤ s.rdPtr.toNat) :
    rdByte s = .ok { s with rdData := 0x00, rdValid := false } :=
  if_neg h.not_gt

/-- Settles O49: a byte is left or none is; elsewhere the command is illegal (R212). -/
theorem rdByteReturnsNextByte : Obligations.RdByteReturnsNextByte := fun imm _ =>
  ⟨fun _ hc hlt hcap hv => exec_session_ok rfl hc (rdByte_ok hlt hcap hv),
    fun hc hend => exec_session_ok rfl hc (rdByte_end hend),
    exec_session_illegal (i := .rdByte imm) rfl⟩

/-- RD_SKIP_BREAK before the end of the document. -/
theorem rdSkipBreak_ok {s : State} {v : Byte} (hlt : s.rdPtr.toNat < s.rawLen.toNat) (hcap : s.rdPtr.toNat < 26670)
    (hv : Memory.read s.doc s.rdPtr.toNat = some v) : rdSkipBreak s = .ok { s with
      rdPtr := BitVec.ofNat 15 (min (s.rdPtr.toNat + (if v = 0xFE then 1 else 0) + 4) s.rawLen.toNat) } := by
  rw [rdSkipBreak, skipSentinel, if_pos hlt, memRead_ok hcap hv]; rfl

/-- RD_SKIP_BREAK at the end of the document. -/
theorem rdSkipBreak_end {s : State} (h : s.rawLen.toNat ≤ s.rdPtr.toNat) :
    rdSkipBreak s = .ok { s with rdPtr := s.rawLen } := by
  have hmin : min (s.rdPtr.toNat + 0 + Config.pdbHdrLen) s.rawLen.toNat = s.rawLen.toNat := min_eq_right (by omega)
  rw [rdSkipBreak, skipSentinel, if_neg h.not_gt, ok_bind, pure_eq_ok, hmin, BitVec.ofNat_toNat, BitVec.setWidth_eq]

/-- A number capped at `RAWLEN` fits `RDPTR`. -/
theorem toNat_ofNat_min_rawLen (n : Nat) (s : State) :
    (BitVec.ofNat 15 (min n s.rawLen.toNat)).toNat = min n s.rawLen.toNat :=
  (BitVec.toNat_ofNat _ _).trans (Nat.mod_eq_of_lt ((min_le_right _ _).trans_lt s.rawLen.isLt))

/-- Settles O50: the pointer is capped at `RAWLEN`, where the command leaves it at the end; elsewhere the command is illegal
(R212). -/
theorem rdSkipBreakSkipsHeader : Obligations.RdSkipBreakSkipsHeader := fun imm s =>
  ⟨fun _ hc hlt hcap hv => ⟨_, exec_session_ok rfl hc (rdSkipBreak_ok hlt hcap hv), toNat_ofNat_min_rawLen _ s⟩,
    fun hc hend => exec_session_ok rfl hc (rdSkipBreak_end hend),
    exec_session_illegal (i := .rdSkipBreak imm) rfl⟩

end Sys2Proof.Machine
end

section
/-! PROOF. How a step ends in `ERR` (R226, R229), and what an error in a decode session leaves (R181). -/

namespace Sys2Proof.Machine

/-! ## `STATE` after a session command's body -/

/-- RX_BYTE in a message body stays in its session (R175, R176). -/
theorem rxBody_ctl {b : Byte} {s t : State} (h : rxBody b s = .ok t) : t.ctl = s.ctl := by
  have hcases := rxBody_cases b s
  simp only [h, reduceCtorEq, and_false, exists_false, or_false, false_or, Except.ok.injEq] at hcases
  obtain ⟨-, -, rfl⟩ | ⟨-, -, -, rfl⟩ | ⟨-, -, -, -, rfl⟩ | ⟨-, -, -, -, rfl⟩ := hcases <;> rfl

/-- RX_BYTE stays in its session (R171). -/
theorem rxByte_ctl {b : Byte} {s t : State} (h : rxByte b s = .ok t) : t.ctl = s.ctl := by
  cases hsub : s.rxSub <;> simp only [rxByte, hsub] at h
  case waitF0 =>
    rw [rxWaitF0_eq] at h
    split_ifs at h
    cases h; rfl
  case hdrMfr | hdrFunc | hdrType =>
    rw [rxHeaderId_eq] at h
    split_ifs at h
    cases h; rfl
  case hdrIdx =>
    rw [rxHeaderIdx_eq] at h
    split_ifs at h
    cases h; rfl
  case body => exact rxBody_ctl h

/-- The bodies that move `STATE` are those of TX_CLOSE, TX_SEND and RX_END. -/
theorem sessionBody_ctl {i : Instr} {s t : State} (h : sessionBody i s = .ok t) :
    t.ctl = s.ctl ∨ ∃ b, (i = .txClose b ∧ t.ctl = .txClosed) ∨ (i = .txSend b ∧ t.ctl = .txSent) ∨
      (i = .rxEnd b ∧ t.ctl = .rxDone) := by
  cases i <;> simp only [sessionBody] at h
  case txPush b =>
    obtain ⟨-, e⟩ | ⟨-, e⟩ | ⟨-, _, e⟩ := txPush_cases b s <;> rw [e] at h <;> cases h
    exact .inl rfl
  case txEmitEnd =>
    obtain ⟨-, e⟩ | ⟨-, e⟩ := txEmitEnd_cases s <;> rw [e] at h
    · cases h; exact .inl rfl
    · obtain ⟨e, -⟩ | ⟨-, -, e⟩ := breakBlock_cases s <;> rw [e] at h <;> cases h
      exact .inl rfl
  case txClose b =>
    obtain ⟨-, e⟩ | ⟨-, e⟩ | ⟨-, _, e⟩ := txClose_cases s <;> rw [e] at h <;> cases h
    exact .inr ⟨b, .inl ⟨rfl, rfl⟩⟩
  case txSend b =>
    obtain ⟨raw, -, e⟩ | ⟨_, e⟩ := txSend_cases s <;> rw [e] at h <;> cases h
    by_cases hlast : s.sendIdx + 1 = s.blkCnt
    · exact .inr ⟨b, .inr (.inl ⟨rfl, if_pos hlast⟩)⟩
    · exact .inl (if_neg hlast)
  case rxByte => exact .inl (rxByte_ctl h)
  case rxEnd b =>
    rw [rxEnd_eq] at h
    split_ifs at h
    cases h
    exact .inr ⟨b, .inr (.inr ⟨rfl, rfl⟩)⟩
  case rdByte =>
    obtain ⟨-, _, -, -, e⟩ | ⟨-, e⟩ | ⟨_, e⟩ := rdByte_cases s <;> rw [e] at h <;> cases h <;> exact .inl rfl
  case rdSkipBreak =>
    obtain ⟨-, _, -, -, e⟩ | ⟨-, e⟩ | ⟨_, e⟩ := rdSkipBreak_cases s <;> rw [e] at h <;> cases h <;> exact .inl rfl
  all_goals cases h; exact .inl rfl

/-- No body of a session command ends in `ERR` without raising. -/
theorem sessionBody_ctl_ne_err {i : Instr} {s t : State} (hs : s.ctl ≠ .err) (h : sessionBody i s = .ok t) :
    t.ctl ≠ .err := by
  obtain hk | ⟨-, ⟨-, hk⟩ | ⟨-, hk⟩ | ⟨-, hk⟩⟩ := sessionBody_ctl h <;> rw [hk]
  · exact hs
  all_goals decide

/-! ## `STATE` after a global command -/

theorem exec_nop (imm : Byte) (s : State) : exec (.nop imm) s = .next s := rfl

theorem exec_reset (imm : Byte) (s : State) : exec (.reset imm) s = .next (resetBlock s) := rfl

/-- The global commands that move `STATE` are RESET and the two that open a session. -/
theorem exec_global_ctl {i : Instr} {s t : State} (hi : legalIn i = none) (h : exec i s = .next t) :
    t.ctl = s.ctl ∨ ∃ b, (i = .reset b ∧ t.ctl = .idle) ∨ (i = .txOpen b ∧ t.ctl = .txBuild) ∨
      (i = .rxOpen b ∧ t.ctl = .rxActive) := by
  cases i <;> simp only [legalIn, reduceCtorEq] at hi <;>
    simp only [exec_nop, exec_reset, exec_txOpen, exec_rxOpen, exec_pkPush, exec_pkFlush, exec_upPush, exec_upFlush,
      Host.Outcome.next.injEq] at h <;> subst h
  case reset b => exact .inr ⟨b, .inl ⟨rfl, rfl⟩⟩
  case txOpen b => exact .inr ⟨b, .inr (.inl ⟨rfl, rfl⟩)⟩
  case rxOpen b => exact .inr ⟨b, .inr (.inr ⟨rfl, rfl⟩)⟩
  case pkPush b => exact .inl (congrArg State.ctl (pkPush_frame b s) :)
  case pkFlush => exact .inl (congrArg State.ctl (pkFlush_frame s) :)
  case nop | upPush | upFlush => exact .inl rfl

/-- A global command never ends in `ERR` where it was not. -/
theorem exec_global_ctl_ne_err {i : Instr} {s t : State} (hi : legalIn i = none) (hs : s.ctl ≠ .err)
    (h : exec i s = .next t) : t.ctl ≠ .err := by
  obtain hk | ⟨-, ⟨-, hk⟩ | ⟨-, hk⟩ | ⟨-, hk⟩⟩ := exec_global_ctl hi h <;> rw [hk]
  · exact hs
  all_goals decide

/-! ## The way into `ERR` -/

/-- A command that ends in `ERR` has taken the error entry from the state it was issued in (R226, R229). -/
theorem exec_enters_err {i : Instr} {s t : State} (hs : s.ctl ≠ .err) (h : exec i s = .next t) (ht : t.ctl = .err) :
    ∃ k, t = errorEntry k (encode i) s := by
  cases hi : legalIn i with
  | none => exact absurd ht (exec_global_ctl_ne_err hi hs h)
  | some c =>
    rw [exec_session hi] at h
    obtain ⟨he, -⟩ | ⟨-, -, hok⟩ | ⟨-, k, hk, -⟩ := runSession_next h
    · exact absurd he hs
    · exact absurd ht (sessionBody_ctl_ne_err hs hok)
    · exact ⟨k, hk⟩

/-- A step with no word issued. -/
theorem step_of_no_word {s : State} (h : s.cmdPort = []) : step s = .next s := by
  simp only [step, takeWord, h]

/-- A step that takes the word of a command. -/
theorem step_of_decode_ok {s : State} {w : Word} {ws : List Word} {i : Instr} (h : s.cmdPort = w :: ws)
    (hi : decode w = .ok i) : step s = exec i { s with cmdPort := ws } := by
  simp only [step, takeWord_cons h, hi]

/-- A step that ends in `ERR`, by a command or a reserved word, has taken the error entry. -/
theorem step_enters_err {s t : State} (hs : s.ctl ≠ .err) (h : step s = .next t) (ht : t.ctl = .err) :
    ∃ k w ws, t = errorEntry k w { s with cmdPort := ws } := by
  cases hp : s.cmdPort with
  | nil =>
    rw [step_of_no_word hp, Host.Outcome.next.injEq] at h
    exact absurd (h ▸ ht) hs
  | cons w ws =>
    cases hd : decode w with
    | ok i =>
      rw [step_of_decode_ok hp hd] at h
      obtain ⟨k, hk⟩ := exec_enters_err (s := { s with cmdPort := ws }) hs h ht
      exact ⟨k, _, ws, hk⟩
    | error e =>
      rw [step_of_decode_error hp hd, execReserved_eq, if_neg hs, Host.Outcome.next.injEq] at h
      exact ⟨.command, w, ws, h.symm⟩

/-! ## Errors in a decode session -/

theorem Ctl.isDecode_iff (c : Ctl) : c.isDecode = true ↔ c = .rxActive ∨ c = .rxDone := by
  simp [Ctl.isDecode]

/-- Settles O51: the step took the error entry of a decode session, and RD_BYTE is ignored in `ERR` (R214). -/
theorem decodeErrorDiscardsDocument : Obligations.DecodeErrorDiscardsDocument := by
  intro s t hs h ht
  rw [Ctl.isDecode_iff] at hs
  have hne : s.ctl ≠ .err := by rcases hs with hc | hc <;> rw [hc] <;> decide
  obtain ⟨k, w, ws, rfl⟩ := step_enters_err hne h ht
  have hread (imm : Byte) := (exec_session (i := .rdByte imm) rfl _).trans (runSession_err ht)
  rw [errorEntry_decode k w { s with cmdPort := ws } hs] at hread ⊢
  exact ⟨rfl, rfl, rfl, rfl, rfl, rfl, rfl, rfl, hread⟩

end Sys2Proof.Machine
end

section
/-! PROOF. NOP (R210), RESET (R211), the legality of commands (R212), and what `ERR` ignores (R214). -/

namespace Sys2Proof.Machine

/-! ## NOP and RESET -/

/-- Settles O6: the command is its meaning, which gives the state back. -/
theorem nopKeepsEverything : Obligations.NopKeepsEverything := exec_nop

/-- RESET gives the values of the reset table (R211, R44). -/
theorem powerOnValues_resetBlock (s : State) : PowerOnValues (resetBlock s) := by
  constructor <;> rfl

/-- With the values of the reset table every field of `STATUS` is 0 (R24). -/
theorem PowerOnValues.statusWord_eq_zero {s : State} (h : PowerOnValues s) : statusWord s = 0x0000 := by
  rw [statusWord, h.ctl, h.rxSub, h.errCode, h.rdValid, h.pkFep, h.pkStop]
  rfl

/-- What the read port shows is in the reset table, and is 0 there (R22, R44). -/
theorem PowerOnValues.readPort_eq_zero {s : State} (h : PowerOnValues s) (a : BitVec 4) : readPort s a = 0x0000 := by
  unfold readPort
  split
  case h_1 => exact h.statusWord_eq_zero
  case h_2 => rw [h.blkCnt]; rfl
  case h_3 => rw [h.rawLen]; rfl
  case h_4 => rw [h.curLen]; rfl
  case h_5 => rw [h.sendIdx]; rfl
  case h_6 => rw [h.rdPtr]; rfl
  case h_7 => rw [h.rdData]; rfl
  case h_8 => exact h.errCmd
  case h_9 => rfl

/-- Settles O7: RESET is `resetBlock`, which gives the values of the reset table and keeps OUT and the parameters. -/
theorem resetReturnsPowerOnState : Obligations.ResetReturnsPowerOnState := fun imm s =>
  ⟨_, exec_reset imm s, powerOnValues_resetBlock s, (powerOnValues_resetBlock s).readPort_eq_zero,
    resetBlock_out s, resetBlock_params s⟩

/-! ## Legality -/

/-- In `ERR` a session command is ignored (R214). -/
theorem exec_session_err {i : Instr} {c : Ctl} {s : State} (hi : legalIn i = some c) (he : s.ctl = .err) :
    exec i s = .next s :=
  (exec_session hi s).trans (runSession_err he)

/-- A global command completes in every `STATE` (R212, R231). -/
theorem exec_global_next {i : Instr} (hi : legalIn i = none) (s : State) : ∃ t, exec i s = .next t := by
  cases i <;> simp only [legalIn, reduceCtorEq] at hi
  case txOpen imm => exact ⟨_, exec_txOpen imm s⟩
  case nop | reset | rxOpen | pkPush | pkFlush | upPush | upFlush => exact ⟨_, rfl⟩

/-- Settles O11: a session command outside its `STATE` and in `ERR`, and a global command anywhere. -/
theorem sessionCommandsLegalInOneState : Obligations.SessionCommandsLegalInOneState := by
  refine fun i s => ⟨fun c hi => ⟨exec_session_illegal hi, exec_session_err hi⟩, fun hi => ?_⟩
  obtain ⟨t, ht⟩ := exec_global_next hi s
  exact ⟨t, ht, fun hs => exec_global_ctl_ne_err hi hs ht⟩

/-! ## NOP and the standalone commands beside an error -/

/-- The state with another `STATE`, `ERRCODE` and `ERRCMD`: the fields NOP and the standalone commands neither read nor write. -/
def withErrorRecord (c : Ctl) (e : Option ErrKind) (w : Word) (s : State) : State :=
  { s with ctl := c, errCode := e, errCmd := w }

section

variable (c : Ctl) (e : Option ErrKind) (w : Word) (b : Byte) (s : State)

theorem pkAdd_withErrorRecord : pkAdd b (withErrorRecord c e w s) = withErrorRecord c e w (pkAdd b s) := by
  by_cases h : s.pkCnt.val + 1 < 7
  · rw [pkAdd_open b h, pkAdd_open b (s := withErrorRecord c e w s) h]; rfl
  · have hfull : s.pkCnt.val = 6 := by omega
    rw [pkAdd_full b hfull, pkAdd_full b (s := withErrorRecord c e w s) hfull]; rfl

theorem pkPush_withErrorRecord : pkPush b (withErrorRecord c e w s) = withErrorRecord c e w (pkPush b s) := by
  cases hs : s.pkStop with
  | true => rw [pkPush_stopped b hs, pkPush_stopped b (s := withErrorRecord c e w s) hs]
  | false =>
    by_cases hj : s.pkFep = true → b = Config.sentinel
    · rw [pkPush_joins hs hj, pkPush_joins (s := withErrorRecord c e w s) hs hj, pkAdd_withErrorRecord]; rfl
    · obtain ⟨hf, hb⟩ := Classical.not_imp.mp hj
      rw [pkPush_terminator hs hf hb, pkPush_terminator (s := withErrorRecord c e w s) hs hf hb]; rfl

theorem pkFlush_withErrorRecord : pkFlush (withErrorRecord c e w s) = withErrorRecord c e w (pkFlush s) := by
  rw [pkFlush_eq, pkFlush_eq]; rfl

theorem upPush_withErrorRecord : upPush b (withErrorRecord c e w s) = withErrorRecord c e w (upPush b s) := by
  by_cases h : s.upIdx = 0
  · rw [upPush_mask b h, upPush_mask b (s := withErrorRecord c e w s) h]; rfl
  · rw [upPush_data b h, upPush_data b (s := withErrorRecord c e w s) h]; rfl

end

/-- NOP and the standalone commands have one effect whatever `STATE`, `ERRCODE` and `ERRCMD` are, and keep them (R214). -/
theorem exec_withErrorRecord {i : Instr} {b : Byte}
    (hi : i ∈ [Instr.nop b, .pkPush b, .pkFlush b, .upPush b, .upFlush b]) (s : State) :
    ∃ t, ∀ c e w, exec i (withErrorRecord c e w s) = .next (withErrorRecord c e w t) := by
  simp only [List.mem_cons, List.not_mem_nil, or_false] at hi
  obtain rfl | rfl | rfl | rfl | rfl := hi
  · exact ⟨s, fun _ _ _ => exec_nop _ _⟩
  · exact ⟨pkPush b s, fun c e w => congrArg _ (pkPush_withErrorRecord c e w b s)⟩
  · exact ⟨pkFlush s, fun c e w => congrArg _ (pkFlush_withErrorRecord c e w s)⟩
  · exact ⟨upPush b s, fun c e w => congrArg _ (upPush_withErrorRecord c e w b s)⟩
  · exact ⟨upFlush s, fun _ _ _ => rfl⟩

/-- Settles O12: by the kind of word. A standalone command runs under the state's own error record as under every other. -/
theorem errIgnoresNonGlobalWords : Obligations.ErrIgnoresNonGlobalWords := by
  refine fun s hs => ⟨fun i hi => ?session, fun w ws hp hr => ?reserved, fun i b hi => ?standalone,
    fun b => ⟨_, exec_txOpen b s, rfl, rfl, rfl⟩, fun b => ⟨_, exec_rxOpen b s, rfl, rfl, rfl⟩,
    fun b => ⟨_, exec_reset b s, powerOnValues_resetBlock s⟩⟩
  case session =>
    obtain ⟨c, hc⟩ := Option.ne_none_iff_exists'.mp hi
    exact exec_session_err hc hs
  case reserved =>
    obtain ⟨opc, he⟩ := (decode_eq_reserved_iff w).mpr hr
    rw [step_of_decode_error hp he, execReserved_eq, if_pos hs]
  case standalone =>
    obtain ⟨t, ht⟩ := exec_withErrorRecord hi s
    exact ⟨withErrorRecord s.ctl s.errCode s.errCmd t, ht s.ctl s.errCode s.errCmd, hs, rfl, rfl,
      fun c => ht c s.errCode s.errCmd⟩

end Sys2Proof.Machine
end

section
/-! PROOF. What raises each kind of error (R221, R223 to R225), what the error entry writes (R226, R229), and what the first
error stands until (R230, R231). -/

namespace Sys2Proof.Machine

/-! ## When a command raises an error -/

/-- The error entry records its kind. -/
theorem errorEntry_kind_inj {k l : ErrKind} {v w : Word} {s t : State} (h : errorEntry k v s = errorEntry l w t) : k = l := by
  simpa using congrArg State.errCode h

/-- A global command raises nothing (R212). -/
theorem not_raises_of_global {k : ErrKind} {i : Instr} {s : State} (hi : legalIn i = none) : ¬ Raises k i s :=
  fun ⟨hs, h⟩ => exec_global_ctl_ne_err hi hs h (errorEntry_ctl ..)

/-- In its own `STATE` a session command raises what its body raises (R215). -/
theorem raises_legal_iff {k : ErrKind} {i : Instr} {s : State} (hi : legalIn i = some s.ctl) :
    Raises k i s ↔ sessionBody i s = .error (.raise k) := by
  have hs := legalIn_ne_err hi
  refine ⟨fun ⟨_, h⟩ => ?_, fun hb => ⟨hs, exec_session_raise hi rfl hb⟩⟩
  rw [exec_session hi, runSession_legal hs rfl] at h
  obtain hok | ⟨l, hl, heq⟩ := finish_next h
  · exact absurd (errorEntry_ctl ..) (sessionBody_ctl_ne_err hs hok)
  · rwa [errorEntry_kind_inj heq]

/-- Outside its own `STATE` and `ERR` a session command raises CommandError (R212). -/
theorem raises_illegal_iff {k : ErrKind} {i : Instr} {c : Ctl} {s : State} (hi : legalIn i = some c) (hc : s.ctl ≠ c) :
    Raises k i s ↔ k = .command ∧ s.ctl ≠ .err := by
  constructor
  · rintro ⟨hs, h⟩
    rw [exec_session_illegal hi hc hs, Host.Outcome.next.injEq] at h
    exact ⟨(errorEntry_kind_inj h).symm, hs⟩
  · rintro ⟨rfl, hs⟩
    exact ⟨hs, exec_session_illegal hi hc hs⟩

/-- Every way a command can raise an error: as illegal where it is issued, or by its body (R215). -/
theorem raises_iff {k : ErrKind} {i : Instr} {s : State} : Raises k i s ↔
    (k = .command ∧ ∃ c, legalIn i = some c ∧ s.ctl ≠ c ∧ s.ctl ≠ .err) ∨
    (legalIn i = some s.ctl ∧ sessionBody i s = .error (.raise k)) := by
  cases hi : legalIn i with
  | none => simp [not_raises_of_global hi]
  | some c =>
    by_cases hc : s.ctl = c
    · simp [raises_legal_iff (hc ▸ hi), hc]
    · simp [raises_illegal_iff hi hc, hc, Ne.symm hc]

/-! ## What each body raises -/

/-- A body of one check raises its error where the check fails. -/
theorem ite_raise_iff {p : Prop} [Decidable p] {k l : ErrKind} {t : State} :
    (if p then .ok t else .error (.raise l) : Attempt) = .error (.raise k) ↔ k = l ∧ ¬ p := by
  split_ifs with h <;> simp [h, eq_comm]

section

variable {k : ErrKind} {b : Byte} {s : State}

/-- TX_PUSH raises at the cap (R138). -/
theorem txPush_raise_iff : txPush b s = .error (.raise k) ↔ k = .capacity ∧ s.rawLen.toNat = 26670 := by
  obtain ⟨h, e⟩ | ⟨h, e⟩ | ⟨h, _, e⟩ := txPush_cases b s <;> rw [e]
  · simp [h, eq_comm]
  all_goals simp [h.ne, h.ne']

/-- TX_CLOSE raises at the cap (R140). -/
theorem txClose_raise_iff : txClose s = .error (.raise k) ↔ k = .capacity ∧ s.rawLen.toNat = 26670 := by
  obtain ⟨h, e⟩ | ⟨h, e⟩ | ⟨h, _, e⟩ := txClose_cases s <;> rw [e]
  · simp [h, eq_comm]
  all_goals simp [h.ne, h.ne']

/-- The break raises without a block or without room for its bytes (R135). -/
theorem breakBlock_raise_iff : breakBlock s = .error (.raise k) ↔ k = .capacity ∧
    (s.blkCnt.toNat = 127 ∨ s.rawLen.toNat + 1 + padNeeded (s.curLen.toNat + 1) + 4 > 26670) := by
  obtain ⟨e, h⟩ | ⟨hblk, hraw, e⟩ := breakBlock_cases s <;> rw [e]
  · simp [h, eq_comm]
  · simp [hblk, hraw]

/-- TX_EMIT_END raises what its break raises (R139). -/
theorem txEmitEnd_raise_iff : txEmitEnd s = .error (.raise k) ↔ k = .capacity ∧ 210 ≤ s.curLen.toNat ∧
    (s.blkCnt.toNat = 127 ∨ s.rawLen.toNat + 1 + padNeeded (s.curLen.toNat + 1) + 4 > 26670) := by
  obtain ⟨h, e⟩ | ⟨h, e⟩ := txEmitEnd_cases s <;> rw [e]
  · simp [h.not_ge]
  · simp [breakBlock_raise_iff, h]

/-- TX_SEND raises nothing (R141). -/
theorem txSend_ne_raise : txSend s ≠ .error (.raise k) := by
  obtain ⟨_, -, e⟩ | ⟨_, e⟩ := txSend_cases s <;> simp [e]

/-- RD_BYTE raises nothing (R179). -/
theorem rdByte_ne_raise : rdByte s ≠ .error (.raise k) := by
  obtain ⟨-, _, -, -, e⟩ | ⟨-, e⟩ | ⟨_, e⟩ := rdByte_cases s <;> simp [e]

/-- RD_SKIP_BREAK raises nothing (R180). -/
theorem rdSkipBreak_ne_raise : rdSkipBreak s ≠ .error (.raise k) := by
  obtain ⟨-, _, -, -, e⟩ | ⟨-, e⟩ | ⟨_, e⟩ := rdSkipBreak_cases s <;> simp [e]

/-- RX_END raises inside a message or with none received (R178). -/
theorem rxEnd_raise_iff : rxEnd s = .error (.raise k) ↔ k = .format ∧ (s.rxSub ≠ .waitF0 ∨ s.blkCnt = 0) := by
  rw [rxEnd_eq, ← ite_not, ite_raise_iff, not_not]

/-- Between messages RX_BYTE raises at any byte but 0xF0 (R172). -/
theorem rxWaitF0_raise_iff : rxWaitF0 b s = .error (.raise k) ↔ k = .format ∧ b ≠ 0xF0 := by
  rw [rxWaitF0_eq, ite_raise_iff]

/-- At an ID byte RX_BYTE raises at any byte but the parameter (R173). -/
theorem rxHeaderId_raise_iff {expect : Byte} {after : RxSub} :
    rxHeaderId expect after b s = .error (.raise k) ↔ k = .format ∧ b ≠ expect := by
  rw [rxHeaderId_eq, ite_raise_iff]

/-- The errors of the block index: a high byte, an index out of sequence, a 128th block (R174). -/
theorem rxHeaderIdx_raise_iff : rxHeaderIdx b s = .error (.raise k) ↔
    (k = .format ∧ 0x80 ≤ b.toNat) ∨ (k = .sequence ∧ b.toNat < 0x80 ∧ b.toNat ≠ s.blkCnt.toNat) ∨
    (k = .capacity ∧ b.toNat = 127 ∧ s.blkCnt.toNat = 127) := by
  rw [rxHeaderIdx_eq]
  split_ifs with hhigh hseq hcap <;> grind

/-- The errors of a message body: a stray byte, a full document, a wrong checksum (R175 to R177). -/
theorem rxBody_raise_iff : rxBody b s = .error (.raise k) ↔
    (k = .format ∧ ((b = 0xF7 ∧ s.holdV = false) ∨ (0x80 ≤ b.toNat ∧ b ≠ 0xF7))) ∨
    (k = .checksum ∧ b = 0xF7 ∧ s.holdV = true ∧ s.rxHold.toNat ≠ s.rxSum.toNat) ∨
    (k = .capacity ∧ b.toNat < 0x80 ∧ s.holdV = true ∧ s.rxIdx ≠ 0 ∧ s.rawLen.toNat = 26670) := by
  obtain
    -- a data byte: held, a mask byte before it, no room, room, or past the cap
    ⟨hb, hv, e⟩ | ⟨hb, hv, h0, e⟩ | ⟨hb, hv, h0, hraw, e⟩ | ⟨hb, hv, h0, hraw, e⟩ | ⟨hb, hv, h0, hraw, _, e⟩ |
    -- 0xF7: nothing held, a wrong checksum, the end of a message, or past the last block
    ⟨hb, hv, e⟩ | ⟨hb, hv, hsum, e⟩ | ⟨hb, hv, hsum, -, e⟩ | ⟨hb, hv, hsum, -, _, e⟩ |
    -- any other high byte
    ⟨hb, hne, e⟩ := rxBody_cases b s
  all_goals rw [e]; grind

/-- The errors of RX_BYTE, by kind and position of the parser (R221 to R224). -/
theorem rxByte_raise_iff : rxByte b s = .error (.raise k) ↔
    (k = .format ∧
      ((s.rxSub = .waitF0 ∧ b ≠ 0xF0) ∨ (s.rxSub = .hdrMfr ∧ b ≠ s.params.mfrId) ∨
       (s.rxSub = .hdrFunc ∧ b ≠ s.params.funcId) ∨ (s.rxSub = .hdrType ∧ b ≠ s.params.typeId) ∨
       (s.rxSub = .hdrIdx ∧ 0x80 ≤ b.toNat) ∨ (s.rxSub = .body ∧ b = 0xF7 ∧ s.holdV = false) ∨
       (s.rxSub = .body ∧ 0x80 ≤ b.toNat ∧ b ≠ 0xF7))) ∨
    (k = .checksum ∧ s.rxSub = .body ∧ b = 0xF7 ∧ s.holdV = true ∧ s.rxHold.toNat ≠ s.rxSum.toNat) ∨
    (k = .sequence ∧ s.rxSub = .hdrIdx ∧ b.toNat < 0x80 ∧ b.toNat ≠ s.blkCnt.toNat) ∨
    (k = .capacity ∧
      ((s.rxSub = .hdrIdx ∧ b.toNat = 127 ∧ s.blkCnt.toNat = 127) ∨
       (s.rxSub = .body ∧ b.toNat < 0x80 ∧ s.holdV = true ∧ s.rxIdx ≠ 0 ∧ s.rawLen.toNat = 26670))) := by
  cases h : s.rxSub <;> simp only [rxByte, h, reduceCtorEq, false_and, and_false, true_and, false_or, or_false]
  case waitF0 => exact rxWaitF0_raise_iff
  case hdrMfr | hdrFunc | hdrType => exact rxHeaderId_raise_iff
  case hdrIdx => exact rxHeaderIdx_raise_iff
  case body => exact rxBody_raise_iff

end

/-- Every error a body raises: three commands that build the document, and two that receive one. -/
theorem legal_body_raise_iff {k : ErrKind} {i : Instr} {s : State} :
    (legalIn i = some s.ctl ∧ sessionBody i s = .error (.raise k)) ↔ ∃ b,
      (i = .txPush b ∧ s.ctl = .txBuild ∧ k = .capacity ∧ s.rawLen.toNat = 26670) ∨
      (i = .txEmitEnd b ∧ s.ctl = .txBuild ∧ k = .capacity ∧ 210 ≤ s.curLen.toNat ∧
        (s.blkCnt.toNat = 127 ∨ s.rawLen.toNat + 1 + padNeeded (s.curLen.toNat + 1) + 4 > 26670)) ∨
      (i = .txClose b ∧ s.ctl = .txBuild ∧ k = .capacity ∧ s.rawLen.toNat = 26670) ∨
      (i = .rxByte b ∧ s.ctl = .rxActive ∧ rxByte b s = .error (.raise k)) ∨
      (i = .rxEnd b ∧ s.ctl = .rxActive ∧ k = .format ∧ (s.rxSub ≠ .waitF0 ∨ s.blkCnt = 0)) := by
  cases i <;> simp only [legalIn, sessionBody, txPush_raise_iff, txEmitEnd_raise_iff, txClose_raise_iff, txSend_ne_raise,
    rxEnd_raise_iff, rdByte_ne_raise, rdSkipBreak_ne_raise] <;> simp [eq_comm (a := s.ctl)]

/-- No body raises CommandError (R225). -/
theorem sessionBody_ne_command {i : Instr} {s : State} (hi : legalIn i = some s.ctl) :
    sessionBody i s ≠ .error (.raise .command) := by
  intro hb
  simpa [rxByte_raise_iff] using legal_body_raise_iff.mp ⟨hi, hb⟩

/-- An error other than CommandError comes from a body. -/
theorem raises_by_body_iff {k : ErrKind} {i : Instr} {s : State} (hk : k ≠ .command) :
    Raises k i s ↔ legalIn i = some s.ctl ∧ sessionBody i s = .error (.raise k) :=
  raises_iff.trans (or_iff_right fun h => hk h.1)

/-! ## The causes of each kind -/

/-- Settles O17: of the commands whose body raises, RX_BYTE and RX_END raise FormatError. -/
theorem formatErrorCauses : Obligations.FormatErrorCauses := by
  intro i s
  rw [raises_by_body_iff (k := .format) nofun, legal_body_raise_iff]
  simp [rxByte_raise_iff]

/-- Settles O19: of the commands whose body raises, RX_BYTE alone raises SequenceError. -/
theorem sequenceErrorCause : Obligations.SequenceErrorCause := by
  intro i s
  rw [raises_by_body_iff (k := .sequence) nofun, legal_body_raise_iff]
  simp [rxByte_raise_iff]

/-- Settles O20: of the commands whose body raises, all but RX_END raise CapacityError; the padding is `PadNeeded` (R134). -/
theorem capacityErrorCauses : Obligations.CapacityErrorCauses := by
  intro i s
  rw [raises_by_body_iff (k := .capacity) nofun, legal_body_raise_iff]
  simp [rxByte_raise_iff, padNeeded]

/-- Settles O21: no body raises it, so a command raises it as illegal alone; a reserved word by `execReserved` (R213). -/
theorem commandErrorCauses : Obligations.CommandErrorCauses := by
  refine ⟨fun i s => ?_, fun s w ws e hp hd hs => ?_⟩
  · rw [raises_iff, or_iff_left fun h => sessionBody_ne_command h.1 h.2, and_iff_right rfl]
  · rw [step_of_decode_error hp hd, execReserved_eq, if_neg hs]

/-! ## The error entry -/

/-- Settles O16: the error entry in and outside a decode session, and the one way a command ends in `ERR`. -/
theorem errorEntryIsPrecise : Obligations.ErrorEntryIsPrecise := by
  refine ⟨fun k w s => ?_, fun i s t => exec_enters_err⟩
  split_ifs with h
  · exact errorEntry_decode k w s h
  · exact errorEntry_keep k w s h

/-! ## Out of `ERR` -/

/-- The commands that lead out of `ERR` (R230). -/
def Recovers (i : Instr) : Prop := ∃ b, i = .txOpen b ∨ i = .rxOpen b ∨ i = .reset b

/-- The state in which a recovery leaves the machine: no error, and a new session or the reset state (R230). -/
def Recovered (t : State) : Prop :=
  t.ctl ≠ .err ∧ t.errCode = none ∧ t.errCmd = 0x0000 ∧ (t.ctl = .txBuild ∨ t.ctl = .rxActive ∨ PowerOnValues t)

/-- A recovery from any state (R230). -/
theorem exec_recovers {i : Instr} {s t : State} (hi : Recovers i) (h : exec i s = .next t) : Recovered t := by
  obtain ⟨b, rfl | rfl | rfl⟩ := hi
  · obtain rfl := Host.Outcome.next.inj ((exec_txOpen b s).symm.trans h)
    exact ⟨nofun, rfl, rfl, .inl rfl⟩
  · obtain rfl := Host.Outcome.next.inj ((exec_rxOpen b s).symm.trans h)
    exact ⟨nofun, rfl, rfl, .inr (.inl rfl)⟩
  · obtain rfl := Host.Outcome.next.inj ((exec_reset b s).symm.trans h)
    exact ⟨nofun, rfl, rfl, .inr (.inr (powerOnValues_resetBlock s))⟩

/-- A global command recovers, or is one that does in `ERR` what it does elsewhere (R214). -/
theorem global_recovers_or {i : Instr} (hi : legalIn i = none) :
    Recovers i ∨ ∃ b, i ∈ [.nop b, .pkPush b, .pkFlush b, .upPush b, .upFlush b] := by
  cases i <;> simp [legalIn, Recovers] at hi ⊢

/-- The second state is in `ERR` with the error record of the first. -/
def SameError (s t : State) : Prop := t.ctl = .err ∧ t.errCode = s.errCode ∧ t.errCmd = s.errCmd

/-- Every other command leaves the first error in place (R231). -/
theorem exec_keeps_error {i : Instr} {s t : State} (hs : s.ctl = .err) (hi : ¬ Recovers i) (h : exec i s = .next t) :
    SameError s t := by
  obtain ⟨hsession, -, hstandalone, -⟩ := errIgnoresNonGlobalWords s hs
  by_cases hleg : legalIn i = none
  · obtain ⟨b, hb⟩ := (global_recovers_or hleg).resolve_left hi
    obtain ⟨u, hu, hctl, hcode, hcmd, -⟩ := hstandalone i b hb
    obtain rfl := Host.Outcome.next.inj (hu.symm.trans h)
    exact ⟨hctl, hcode, hcmd⟩
  · obtain rfl := Host.Outcome.next.inj ((hsession i hleg).symm.trans h)
    exact ⟨hs, rfl, rfl⟩

/-- The next word issued is one of a recovery. -/
def RecoveryIssued (s : State) : Prop := ∃ (w : Word) (ws : List Word) (b : Byte), s.cmdPort = w :: ws ∧
  (decode w = .ok (.txOpen b) ∨ decode w = .ok (.rxOpen b) ∨ decode w = .ok (.reset b))

/-- Everything a step from `ERR` can do (R230, R231). -/
theorem step_from_err {s t : State} (hs : s.ctl = .err) (h : step s = .next t) :
    (RecoveryIssued s ∧ Recovered t) ∨ (¬ RecoveryIssued s ∧ SameError s t) := by
  cases hp : s.cmdPort with
  | nil =>
    obtain rfl := Host.Outcome.next.inj ((step_of_no_word hp).symm.trans h)
    exact .inr ⟨by simp [RecoveryIssued, hp], hs, rfl, rfl⟩
  | cons w ws =>
    cases hd : decode w with
    | ok i =>
      rw [step_of_decode_ok hp hd] at h
      have hissued : RecoveryIssued s ↔ Recovers i := by simp [RecoveryIssued, Recovers, hp, hd]
      by_cases hi : Recovers i
      · exact .inl ⟨hissued.mpr hi, exec_recovers hi h⟩
      · exact .inr ⟨mt hissued.mp hi, exec_keeps_error (s := { s with cmdPort := ws }) hs hi h⟩
    | error e =>
      rw [step_of_decode_error hp hd, execReserved_eq, if_pos hs, Host.Outcome.next.injEq] at h
      subst h
      exact .inr ⟨by simp [RecoveryIssued, hp, hd], hs, rfl, rfl⟩

/-- Settles O13: a step from `ERR` takes a recovery's word, or leaves the error as it is. -/
theorem firstErrorKeptUntilRecovery : Obligations.FirstErrorKeptUntilRecovery := by
  intro s t hs h
  obtain ⟨hissued, hout, hrest⟩ | ⟨hnot, hin, hsame⟩ := step_from_err hs h
  · exact ⟨iff_of_true hout hissued, fun _ => hrest, fun hin => absurd hin hout⟩
  · exact ⟨iff_of_false (not_not.mpr hin) hnot, fun hout => absurd hin hout, fun _ => hsame⟩

end Sys2Proof.Machine
end

section
/-! PROOF. The encoding of commands (R70 to R74), the step that takes a word (R21), and the values after reset (R44, R24). -/

namespace Sys2Proof.Machine

/-! ## Encoding -/

/-- A command decodes from its word: the word's fields are the command's own (R70). -/
theorem decode_encode (i : Instr) : decode (encode i) = .ok i := by
  cases i <;> (unfold decode encode; rw [opcOf_append, immOf_append]; rfl)

/-- A word that decodes is the word of its command (R74). -/
theorem encode_of_decode {w : Word} {i : Instr} (h : decode w = .ok i) : encode i = w := by
  obtain ⟨-, j, hj, hopc, himm⟩ | ⟨-, he⟩ := decode_cases w
  · obtain rfl := Except.ok.inj (hj.symm.trans h)
    rw [encode, hopc, himm, opcOf_append_immOf]
  · exact nomatch he.symm.trans h

/-- Settles O1: one direction by the fields of an encoded command, the other by the fields of a decoded word. -/
theorem decodeEncodeAgree : Obligations.DecodeEncodeAgree := ⟨decode_encode, fun _ _ => encode_of_decode⟩

/-- Settles O3: each word by evaluating the decoder on it. -/
theorem opcodeMapWords : Obligations.OpcodeMapWords :=
  ⟨rfl, rfl, rfl, rfl, rfl, rfl, rfl, rfl, rfl⟩

/-- Settles O5: the step by whether a word is issued; 16 bits of a number are all a word holds. -/
theorem stepRunsDecodedCommand : Obligations.StepRunsDecodedCommand :=
  ⟨fun _ _ _ _ => step_of_decode_ok, fun _ => step_of_no_word, fun s _ =>
    congrArg (· :: s.cmdPort) (BitVec.eq_of_toNat_eq (by simp))⟩

/-! ## The values after reset, and the fields of `STATUS` -/

/-- The state after power-on has the values of the reset table (R44). -/
theorem powerOnValues_reset : PowerOnValues State.reset := by
  constructor <;> rfl

/-- Settles O8: the reset table, and what the read port shows of it. -/
theorem powerOnStateReadsZero : Obligations.PowerOnStateReadsZero :=
  ⟨powerOnValues_reset, powerOnValues_reset.readPort_eq_zero, rfl⟩

/-- The fields of `STATUS`, bit by bit (R24). -/
theorem getLsbD_statusWord (s : State) {i : Nat} (hi : i < 16) : (statusWord s).getLsbD i =
    if i < 4 then s.ctl.code.getLsbD i else if i < 8 then s.rxSub.code.getLsbD (i - 4)
    else if i < 11 then (errCodeBits s.errCode).getLsbD (i - 8)
    else if i = 11 then s.rdValid else if i = 12 then s.pkFep else if i = 13 then s.pkStop else false := by
  simp only [statusWord, flagWord_eq_setWidth, BitVec.getLsbD_or, BitVec.getLsbD_shiftLeft, BitVec.getLsbD_setWidth]
  interval_cases i <;> simp

/-- A run of bits of a word is the field those bits hold. -/
theorem extractLsb'_eq_of_getLsbD {w : Word} {start n : Nat} {x : BitVec n}
    (h : ∀ i, i < n → w.getLsbD (start + i) = x.getLsbD i) : w.extractLsb' start n = x :=
  BitVec.eq_of_getLsbD_eq fun i hi => by simp [hi, h i hi]

/-- Settles O9: every field by its bits, then by the code of each of its values. -/
theorem statusWordFields : Obligations.StatusWordFields := by
  intro s
  have hctl : (statusWord s).extractLsb' 0 4 = s.ctl.code := extractLsb'_eq_of_getLsbD fun i hi => by
    rw [getLsbD_statusWord s (by omega), Nat.zero_add, if_pos hi]
  have hsub : (statusWord s).extractLsb' 4 3 = s.rxSub.code := extractLsb'_eq_of_getLsbD fun i hi => by
    rw [getLsbD_statusWord s (by omega), if_neg (by omega), if_pos (by omega), Nat.add_sub_cancel_left]
  have herr : (statusWord s).extractLsb' 8 3 = errCodeBits s.errCode := extractLsb'_eq_of_getLsbD fun i hi => by
    rw [getLsbD_statusWord s (by omega), if_neg (by omega), if_neg (by omega), if_pos (by omega), Nat.add_sub_cancel_left]
  rw [show readPort s 0x0 = statusWord s from rfl, hctl, hsub, herr]
  refine ⟨?ctl, ?rxSub, ?errCode, ?_, ?_, ?_, ?_, ?_, ?_⟩
  case ctl => cases s.ctl <;> rfl
  case rxSub => cases s.rxSub <;> rfl
  case errCode => rcases s.errCode with _ | k <;> [rfl; cases k <;> rfl]
  all_goals rw [getLsbD_statusWord s (by decide)]; simp

/-- The invariants hold after power-on: nothing is listed, every counter and flag is 0 (R44). -/
theorem invariants_powerOn (p : BuiltParams) : Invariants (State.powerOn p) := by
  constructor <;> simp [Ctl.isEncode, Ctl.isDecode, Memory.wf, Memory.risingFrom]

/-- Settles O59: the reset state is one after power-on. -/
theorem resetMeetsInvariants : Obligations.ResetMeetsInvariants := invariants_powerOn _

end Sys2Proof.Machine
end

section
/-! PROOF. Everything a command can do, as one relation, and what follows for `STATE` (R216), the parameters and the command
port (R66, R70), OUT (R56), `DOC` (R53) and the standalone registers (R67). -/

namespace Sys2Proof.Machine

/-! ## Everything a command can do -/

/-- The state in which a message body opens, with its checksum and its group at their start (R174). -/
def bodyOpened (s : State) : State :=
  { s with
    msgStart := s.rawLen
    curLen := 0, rxSum := 0, rxHold := 0x00, holdV := false, rxMask := 0x00, rxIdx := 0
    rxSub := .body }

/-- The state in which a message has ended and counts as one block (R176). -/
def messageEnded (s : State) : State :=
  { s with
    blkStart := s.blkStart.setIfInBounds s.blkCnt.toNat s.msgStart, blkCnt := s.blkCnt + 1
    holdV := false, rxHold := 0, rxSub := .waitF0 }

/-- What a command does where it neither is ignored nor raises an error: the state it leaves, and the checks it has passed as
far as the state's bounds rest on them. -/
inductive Effect (s : State) : Instr → State → Prop
  | nop (b : Byte) : Effect s (.nop b) s
  | reset (b : Byte) : Effect s (.reset b) (resetBlock s)
  | txOpen (b : Byte) : Effect s (.txOpen b) { broken (opened s) with ctl := .txBuild }
  | rxOpen (b : Byte) : Effect s (.rxOpen b) { clearSession s with ctl := .rxActive }
  | pkPush (b : Byte) : Effect s (.pkPush b) (pkPush b s)
  | pkFlush (b : Byte) : Effect s (.pkFlush b) (pkFlush s)
  | upPush (b : Byte) : Effect s (.upPush b) (upPush b s)
  | upFlush (b : Byte) : Effect s (.upFlush b) (upFlush s)
  | txPush (b : Byte) (hc : s.ctl = .txBuild) (hroom : s.rawLen.toNat < 26670) : Effect s (.txPush b) (appended [b] s)
  | shortBlock (b : Byte) (hc : s.ctl = .txBuild) (hlim : s.curLen.toNat < 210) : Effect s (.txEmitEnd b) s
  | fullBlock (b : Byte) (hc : s.ctl = .txBuild) (hlim : 210 ≤ s.curLen.toNat) (hblk : s.blkCnt.toNat ≠ 127)
      (hroom : s.rawLen.toNat + 1 + padNeeded (s.curLen.toNat + 1) + 4 ≤ 26670) : Effect s (.txEmitEnd b) (broken s)
  | txClose (b : Byte) (hc : s.ctl = .txBuild) (hroom : s.rawLen.toNat < 26670) :
      Effect s (.txClose b) { appended [0xFE] s with sendIdx := 0, ctl := .txClosed }
  | txSend (b : Byte) (raw : List Byte) (hc : s.ctl = .txClosed) (hraw : blockBytes s.sendIdx.toNat s = .ok raw) :
      Effect s (.txSend b) (sent raw s)
  | rxHeader (b : Byte) (sub : RxSub) (hc : s.ctl = .rxActive) (hsub : s.rxSub ≠ .body) (hnext : sub ≠ .body) :
      Effect s (.rxByte b) { s with rxSub := sub }
  | rxIndex (b : Byte) (hc : s.ctl = .rxActive) (hsub : s.rxSub = .hdrIdx) (hidx : b.toNat = s.blkCnt.toNat)
      (hblk : s.blkCnt.toNat ≠ 127) : Effect s (.rxByte b) (bodyOpened s)
  | rxFirst (b : Byte) (hc : s.ctl = .rxActive) (hsub : s.rxSub = .body) : Effect s (.rxByte b) (heldFirst b s)
  | rxMask (b : Byte) (hc : s.ctl = .rxActive) (hsub : s.rxSub = .body) : Effect s (.rxByte b) { s with
        rxSum := BitVec.ofNat 7 ((s.rxSum.toNat + s.rxHold.toNat) % 128)
        rxMask := s.rxHold, rxIdx := 1, rxHold := b }
  | rxData (b : Byte) (hc : s.ctl = .rxActive) (hsub : s.rxSub = .body) (hroom : s.rawLen.toNat < 26670) :
      Effect s (.rxByte b) { appended [restoreBit7 s.rxMask (s.rxIdx.toNat - 1) s.rxHold] s with
        rxSum := BitVec.ofNat 7 ((s.rxSum.toNat + s.rxHold.toNat) % 128)
        rxIdx := if s.rxIdx = 7 then 0 else s.rxIdx + 1, rxHold := b }
  | rxMessageEnd (hc : s.ctl = .rxActive) (hsub : s.rxSub = .body) (hblk : s.blkCnt.toNat < 127) :
      Effect s (.rxByte 0xF7) (messageEnded s)
  | rxEnd (b : Byte) (hc : s.ctl = .rxActive) (hsub : s.rxSub = .waitF0) (hblk : s.blkCnt ≠ 0) :
      Effect s (.rxEnd b) { s with rdPtr := 0, ctl := .rxDone }
  | rdByte (b v : Byte) (hc : s.ctl = .rxDone) (hlt : s.rdPtr.toNat < s.rawLen.toNat) :
      Effect s (.rdByte b) { s with rdData := v, rdValid := true, rdPtr := s.rdPtr + 1 }
  | rdEnd (b : Byte) (hc : s.ctl = .rxDone) : Effect s (.rdByte b) { s with rdData := 0, rdValid := false }
  | rdSkipBreak (b : Byte) (p : BitVec 15) (hc : s.ctl = .rxDone) (hle : p.toNat ≤ s.rawLen.toNat) :
      Effect s (.rdSkipBreak b) { s with rdPtr := p }

/-- A global command that completes (R212). -/
theorem effect_of_global {i : Instr} {s t : State} (hi : legalIn i = none) (h : exec i s = .next t) : Effect s i t := by
  cases i <;> simp only [legalIn, reduceCtorEq] at hi <;>
    simp only [exec_nop, exec_reset, exec_txOpen, exec_rxOpen, exec_pkPush, exec_pkFlush, exec_upPush, exec_upFlush,
      Host.Outcome.next.injEq] at h <;> subst h <;> constructor

/-- The ways RX_BYTE goes on inside a message body (R175, R176). -/
theorem effect_of_rxBody {b : Byte} {s t : State} (hc : s.ctl = .rxActive) (hsub : s.rxSub = .body)
    (h : rxBody b s = .ok t) : Effect s (.rxByte b) t := by
  have hcases := rxBody_cases b s
  simp only [h, reduceCtorEq, and_false, exists_false, or_false, false_or, Except.ok.injEq] at hcases
  obtain ⟨-, -, rfl⟩ | ⟨-, -, -, rfl⟩ | ⟨-, -, -, hroom, rfl⟩ | ⟨rfl, -, -, hblk, rfl⟩ := hcases
  · exact .rxFirst b hc hsub
  · exact .rxMask b hc hsub
  · exact .rxData b hc hsub hroom
  · exact .rxMessageEnd hc hsub hblk

/-- The ways RX_BYTE goes on (R171). -/
theorem effect_of_rxByte {b : Byte} {s t : State} (hc : s.ctl = .rxActive) (h : rxByte b s = .ok t) :
    Effect s (.rxByte b) t := by
  cases hsub : s.rxSub <;> simp only [rxByte, hsub] at h
  case waitF0 =>
    rw [rxWaitF0_eq] at h
    split_ifs at h
    cases h; exact .rxHeader b _ hc (by simp [hsub]) nofun
  case hdrMfr | hdrFunc | hdrType =>
    rw [rxHeaderId_eq] at h
    split_ifs at h
    cases h; exact .rxHeader b _ hc (by simp [hsub]) nofun
  case hdrIdx =>
    rw [rxHeaderIdx_eq] at h
    split_ifs at h with _ hidx hblk
    cases h; exact .rxIndex b hc hsub (not_not.mp hidx) hblk
  case body => exact effect_of_rxBody hc hsub h

/-- The ways the body of a session command goes on. -/
theorem effect_of_sessionBody {i : Instr} {s t : State} (hi : legalIn i = some s.ctl) (h : sessionBody i s = .ok t) :
    Effect s i t := by
  cases i <;> simp only [legalIn, reduceCtorEq, Option.some.injEq] at hi <;> simp only [sessionBody] at h <;>
    replace hi := hi.symm
  case txPush b =>
    obtain ⟨-, e⟩ | ⟨hroom, e⟩ | ⟨-, _, e⟩ := txPush_cases b s <;> rw [e] at h <;> cases h
    exact .txPush b hi hroom
  case txEmitEnd b =>
    obtain ⟨hlim, e⟩ | ⟨hlim, e⟩ := txEmitEnd_cases s <;> rw [e] at h
    · cases h; exact .shortBlock b hi hlim
    · obtain ⟨e, -⟩ | ⟨hblk, hroom, e⟩ := breakBlock_cases s <;> rw [e] at h <;> cases h
      exact .fullBlock b hi hlim hblk hroom
  case txClose b =>
    obtain ⟨-, e⟩ | ⟨hroom, e⟩ | ⟨-, _, e⟩ := txClose_cases s <;> rw [e] at h <;> cases h
    exact .txClose b hi hroom
  case txSend b =>
    obtain ⟨raw, hraw, e⟩ | ⟨_, e⟩ := txSend_cases s <;> rw [e] at h <;> cases h
    exact .txSend b raw hi hraw
  case rxByte => exact effect_of_rxByte hi h
  case rxEnd b =>
    rw [rxEnd_eq] at h
    split_ifs at h with hbad
    cases h
    exact .rxEnd b hi (not_not.mp (not_or.mp hbad).1) (not_or.mp hbad).2
  case rdByte b =>
    obtain ⟨hlt, v, -, -, e⟩ | ⟨-, e⟩ | ⟨_, e⟩ := rdByte_cases s <;> rw [e] at h <;> cases h
    · exact .rdByte b v hi hlt
    · exact .rdEnd b hi
  case rdSkipBreak b =>
    obtain ⟨-, _, -, -, e⟩ | ⟨-, e⟩ | ⟨_, e⟩ := rdSkipBreak_cases s <;> rw [e] at h <;> cases h
    · exact .rdSkipBreak b _ hi ((toNat_ofNat_min_rawLen _ s).trans_le (min_le_right _ _))
    · exact .rdSkipBreak b _ hi le_rfl

/-- Everything a command can do: its effect, nothing in `ERR`, or the error entry (R215). -/
theorem exec_cases {i : Instr} {s t : State} (h : exec i s = .next t) :
    Effect s i t ∨ (s.ctl = .err ∧ t = s) ∨ (s.ctl ≠ .err ∧ ∃ k, t = errorEntry k (encode i) s) := by
  cases hi : legalIn i with
  | none => exact .inl (effect_of_global hi h)
  | some c =>
    rw [exec_session hi] at h
    obtain hignored | ⟨-, rfl, hok⟩ | ⟨hs, k, hk, -⟩ := runSession_next h
    · exact .inr (.inl hignored)
    · exact .inl (effect_of_sessionBody hi hok)
    · exact .inr (.inr ⟨hs, k, hk⟩)

/-- A step does nothing, executes a command, or ends as a reserved word does. -/
theorem step_cases {s t : State} (h : step s = .next t) :
    (s.cmdPort = [] ∧ t = s) ∨ ∃ w ws, s.cmdPort = w :: ws ∧ ((∃ i, exec i { s with cmdPort := ws } = .next t) ∨
      t = { s with cmdPort := ws } ∨ (s.ctl ≠ .err ∧ t = errorEntry .command w { s with cmdPort := ws })) := by
  cases hp : s.cmdPort with
  | nil => exact .inl ⟨rfl, (Host.Outcome.next.inj ((step_of_no_word hp).symm.trans h)).symm⟩
  | cons w ws =>
    refine .inr ⟨w, ws, rfl, ?_⟩
    cases hd : decode w with
    | ok i => exact .inl ⟨i, (step_of_decode_ok hp hd).symm.trans h⟩
    | error e =>
      rw [step_of_decode_error hp hd, execReserved_eq, Host.Outcome.next.injEq] at h
      subst h
      split_ifs with hs
      · exact .inr (.inl rfl)
      · exact .inr (.inr ⟨hs, rfl⟩)

/-! ## The changes of `STATE` -/

/-- Settles O14: a change by a body, by a global command, or by the error entry. -/
theorem stateTransitionsAreListed : Obligations.StateTransitionsAreListed := by
  intro i s t h hne
  cases hi : legalIn i with
  | none =>
    obtain hk | ⟨b, hb⟩ := exec_global_ctl hi h
    · exact absurd hk hne
    · exact ⟨b, by tauto⟩
  | some c =>
    rw [exec_session hi] at h
    obtain ⟨-, rfl⟩ | ⟨-, -, hok⟩ | ⟨-, k, rfl, -⟩ := runSession_next h
    · exact absurd rfl hne
    · obtain hk | ⟨b, hb⟩ := sessionBody_ctl hok
      · exact absurd hk hne
      · exact ⟨b, by tauto⟩
    · exact ⟨0, by simpa using ⟨k, rfl⟩⟩

/-! ## The parameters and the command port -/

/-- No command writes the parameters or the command port (R66, R70). -/
theorem Effect.params_cmdPort {i : Instr} {s t : State} (h : Effect s i t) :
    t.params = s.params ∧ t.cmdPort = s.cmdPort := by
  cases h
  case pkPush b => rw [pkPush_frame]; exact ⟨rfl, rfl⟩
  case pkFlush => rw [pkFlush_eq]; exact ⟨rfl, rfl⟩
  all_goals exact ⟨rfl, rfl⟩

theorem exec_params_cmdPort {i : Instr} {s t : State} (h : exec i s = .next t) :
    t.params = s.params ∧ t.cmdPort = s.cmdPort := by
  obtain he | ⟨-, rfl⟩ | ⟨-, k, rfl⟩ := exec_cases h
  · exact he.params_cmdPort
  · exact ⟨rfl, rfl⟩
  · exact ⟨errorEntry_params .., errorEntry_cmdPort ..⟩

/-- Settles O53: a machine's parameters carry the constraints of R7, construction is `build`, and a step is a command on the
state with the next word taken, or a reserved word. -/
theorem parametersConstrainedAndReadOnly : Obligations.ParametersConstrainedAndReadOnly := by
  refine ⟨fun s => (Params.wellFormed_iff _).mp s.params.constrained, fun p => ?build, fun s t h => ?step⟩
  case build =>
    rw [← Params.wellFormed_iff]
    constructor
    · rintro ⟨b, -, rfl⟩
      exact b.constrained
    · exact fun hp => ⟨⟨p, hp⟩, BuiltParams.build_ok.mpr rfl, rfl⟩
  case step =>
    obtain ⟨hp, rfl⟩ | ⟨w, ws, hp, ⟨i, hx⟩ | rfl | ⟨-, rfl⟩⟩ := step_cases h <;> rw [hp]
    · exact ⟨rfl, rfl⟩
    · exact exec_params_cmdPort hx
    · exact ⟨rfl, rfl⟩
    · exact ⟨errorEntry_params .., errorEntry_cmdPort ..⟩

/-! ## OUT -/

/-- `PkAdd` appends to OUT (R108). -/
theorem pkAdd_out (b : Byte) (s : State) : s.out <+: (pkAdd b s).out := by
  by_cases h : s.pkCnt.val + 1 < 7
  · rw [pkAdd_open b h]
  · rw [pkAdd_full b (by omega)]; exact ⟨_, rfl⟩

/-- PK_PUSH appends to OUT (R109). -/
theorem pkPush_out (b : Byte) (s : State) : s.out <+: (pkPush b s).out := by
  cases hs : s.pkStop with
  | true => rw [pkPush_stopped b hs]
  | false =>
    by_cases hj : s.pkFep = true → b = Config.sentinel
    · rw [pkPush_joins hs hj]; exact pkAdd_out b s
    · obtain ⟨hf, hb⟩ := Classical.not_imp.mp hj
      rw [pkPush_terminator hs hf hb]; exact ⟨_, rfl⟩

/-- OUT has only grown, and by one of the four commands that emit (R56). -/
def OutGrows (i : Instr) (s t : State) : Prop :=
  s.out <+: t.out ∧ (t.out ≠ s.out → ∃ b, i = .txSend b ∨ i = .pkPush b ∨ i = .pkFlush b ∨ i = .upPush b)

theorem outGrows_of_eq {i : Instr} {s t : State} (h : t.out = s.out) : OutGrows i s t :=
  ⟨by rw [h], fun hne => absurd h hne⟩

theorem Effect.outGrows {i : Instr} {s t : State} (h : Effect s i t) : OutGrows i s t := by
  cases h
  case txSend b raw _ _ => exact ⟨⟨_, rfl⟩, fun _ => ⟨b, .inl rfl⟩⟩
  case pkPush b => exact ⟨pkPush_out b s, fun _ => ⟨b, .inr (.inl rfl)⟩⟩
  case pkFlush b => exact ⟨by rw [pkFlush_eq]; exact ⟨_, rfl⟩, fun _ => ⟨b, .inr (.inr (.inl rfl))⟩⟩
  case upPush b => exact ⟨⟨_, rfl⟩, fun _ => ⟨b, .inr (.inr (.inr rfl))⟩⟩
  all_goals exact outGrows_of_eq rfl

theorem exec_outGrows {i : Instr} {s t : State} (h : exec i s = .next t) : OutGrows i s t := by
  obtain he | ⟨-, rfl⟩ | ⟨-, k, rfl⟩ := exec_cases h
  · exact he.outGrows
  · exact outGrows_of_eq rfl
  · exact outGrows_of_eq (errorEntry_out ..)

/-- Settles O54: a step is a command or leaves OUT, and each command's effect on OUT is known. -/
theorem outIsAppendOnly : Obligations.OutIsAppendOnly := by
  refine ⟨fun s t h => ?_, fun _ _ _ h => (exec_outGrows h).2⟩
  obtain ⟨-, rfl⟩ | ⟨w, ws, -, ⟨i, hx⟩ | rfl | ⟨-, rfl⟩⟩ := step_cases h
  · rfl
  · exact (exec_outGrows hx).1
  · rfl
  · rw [errorEntry_out]

/-! ## `DOC` -/

/-- Every changed byte of `DOC` was appended, and by one of the commands that append, or RESET, which unlists it (R53). -/
def DocAppended (i : Instr) (s t : State) : Prop :=
  (∀ a, Memory.read t.doc a ≠ Memory.read s.doc a → (∀ b, i ≠ .reset b) →
    a < t.rawLen.toNat ∧ ((∀ b, i ≠ .txOpen b) → s.rawLen.toNat ≤ a)) ∧
  (t.doc ≠ s.doc → ∃ b, i = .txOpen b ∨ i = .txPush b ∨ i = .txEmitEnd b ∨ i = .txClose b ∨ i = .rxByte b ∨ i = .reset b)

theorem docAppended_of_eq {i : Instr} {s t : State} (h : t.doc = s.doc) : DocAppended i s t :=
  ⟨fun _ ha => absurd (by rw [h]) ha, fun hne => absurd h hne⟩

/-- Where bytes were appended, every changed byte lies from the old `RAWLEN` to below the new one. -/
theorem appended_changes {bs : List Byte} {s : State} (hroom : s.rawLen.toNat + bs.length ≤ Config.rawCap) {a : Nat}
    (h : Memory.read (appended bs s).doc a ≠ Memory.read s.doc a) :
    a < (appended bs s).rawLen.toNat ∧ s.rawLen.toNat ≤ a := by
  rw [read_appended] at h
  rw [appended_rawLen_toNat hroom]
  split_ifs at h with hin
  · exact hin.symm
  · exact absurd rfl h

theorem appended_one_changes {b : Byte} {s : State} (hroom : s.rawLen.toNat < 26670) {a : Nat}
    (h : Memory.read (appended [b] s).doc a ≠ Memory.read s.doc a) :
    a < (appended [b] s).rawLen.toNat ∧ s.rawLen.toNat ≤ a :=
  appended_changes (bs := [b]) (Nat.succ_le_of_lt hroom) h

theorem broken_rawLen_toNat {s : State} (h : s.rawLen.toNat + 1 + padNeeded (s.curLen.toNat + 1) + 4 ≤ 26670) :
    (broken s).rawLen.toNat = s.rawLen.toNat + (1 + padNeeded (s.curLen.toNat + 1) + 4) := by
  rw [broken_rawLen, BitVec.toNat_add, BitVec.toNat_ofNat]; omega

/-- Where a block was broken, every changed byte lies from the old `RAWLEN` to below the new one (R136). -/
theorem broken_changes {s : State} (hroom : s.rawLen.toNat + 1 + padNeeded (s.curLen.toNat + 1) + 4 ≤ 26670) {a : Nat}
    (h : Memory.read (broken s).doc a ≠ Memory.read s.doc a) : a < (broken s).rawLen.toNat ∧ s.rawLen.toNat ≤ a := by
  rw [read_broken s hroom] at h
  rw [broken_rawLen_toNat hroom]
  split_ifs at h with hin
  · exact hin.symm
  · exact absurd rfl h

theorem broken_opened_rawLen_toNat (s : State) : (broken (opened s)).rawLen.toNat = 46 := by
  rw [broken_rawLen, padNeeded_opened, opened_rawLen]; rfl

theorem Effect.docAppended {i : Instr} {s t : State} (h : Effect s i t) : DocAppended i s t := by
  cases h
  case reset b => exact ⟨fun a _ hne => absurd rfl (hne b), fun _ => ⟨b, by simp⟩⟩
  case txOpen b =>
    refine ⟨fun a ha _ => ⟨?_, fun hne => absurd rfl (hne b)⟩, fun _ => ⟨b, by simp⟩⟩
    rw [read_broken_opened] at ha
    rw [broken_opened_rawLen_toNat]
    split_ifs at ha with hin
    · exact hin
    · exact absurd rfl ha
  case txPush b _ hroom | txClose b _ hroom | rxData b _ _ hroom =>
    exact ⟨fun a ha _ => (appended_one_changes hroom ha).imp_right fun h _ => h, fun _ => ⟨b, by simp⟩⟩
  case fullBlock b _ _ _ hroom =>
    exact ⟨fun a ha _ => (broken_changes hroom ha).imp_right fun h _ => h, fun _ => ⟨b, by simp⟩⟩
  case pkPush b => exact docAppended_of_eq (by rw [pkPush_frame])
  case pkFlush b => exact docAppended_of_eq (by rw [pkFlush_eq])
  all_goals exact docAppended_of_eq rfl

/-- Settles O55: an effect writes where it appends; a command that is ignored or raises writes nothing. -/
theorem docWrittenOnlyByAppend : Obligations.DocWrittenOnlyByAppend := by
  intro i s t h
  obtain he | ⟨-, rfl⟩ | ⟨-, k, rfl⟩ := exec_cases h
  · exact he.docAppended
  · exact docAppended_of_eq rfl
  · exact docAppended_of_eq (errorEntry_doc ..)

/-! ## Sessions and the standalone registers -/

/-- Settles O56: no effect of a session command or an OPEN writes a standalone register, nor does the error entry. -/
theorem sessionsLeaveStandaloneState : Obligations.SessionsLeaveStandaloneState := by
  intro i s t h hi
  obtain he | ⟨-, rfl⟩ | ⟨-, k, rfl⟩ := exec_cases h
  · cases he
    case nop | reset | pkPush | pkFlush | upPush | upFlush => simp [legalIn] at hi
    all_goals exact ⟨rfl, rfl, rfl, rfl, rfl, rfl, rfl⟩
  · exact ⟨rfl, rfl, rfl, rfl, rfl, rfl, rfl⟩
  · simp

theorem pkPush_unpacker (b : Byte) (s : State) : (pkPush b s).upMask = s.upMask ∧ (pkPush b s).upIdx = s.upIdx := by
  rw [pkPush_frame]; exact ⟨rfl, rfl⟩

/-- Settles O57: the four commands complete with known states, whose frames are R109's, R110's, R113's and R114's. -/
theorem standaloneCommandsLeaveSession : Obligations.StandaloneCommandsLeaveSession := by
  intro i b s hi
  simp only [List.mem_cons, List.not_mem_nil, or_false] at hi
  obtain rfl | rfl | rfl | rfl := hi
  · obtain ⟨hmask, hidx⟩ := pkPush_unpacker b s
    refine ⟨_, exec_pkPush b s, ?_, fun _ => ⟨hmask, hidx⟩, by simp⟩
    rw [hmask, hidx]
    exact pkPush_frame b s
  · refine ⟨_, exec_pkFlush b s, ?_⟩
    rw [pkFlush_eq]
    exact ⟨rfl, fun _ => ⟨rfl, rfl⟩, by simp⟩
  · exact ⟨_, exec_upPush b s, rfl, by simp, fun _ => ⟨rfl, rfl, rfl, rfl, rfl⟩⟩
  · exact ⟨_, exec_upFlush b s, rfl, by simp, fun _ => ⟨rfl, rfl, rfl, rfl, rfl⟩⟩

/-! ## The operand of a command without one -/

/-- The command with another `IMM` byte. -/
def withImm (b : Byte) : Instr → Instr
  | .nop _ => .nop b
  | .reset _ => .reset b
  | .txOpen _ => .txOpen b
  | .txPush _ => .txPush b
  | .txEmitEnd _ => .txEmitEnd b
  | .txClose _ => .txClose b
  | .txSend _ => .txSend b
  | .rxOpen _ => .rxOpen b
  | .rxByte _ => .rxByte b
  | .rxEnd _ => .rxEnd b
  | .rdByte _ => .rdByte b
  | .rdSkipBreak _ => .rdSkipBreak b
  | .pkPush _ => .pkPush b
  | .pkFlush _ => .pkFlush b
  | .upPush _ => .upPush b
  | .upFlush _ => .upFlush b

/-- The word of a command with another `IMM` byte (R70). -/
theorem encode_withImm (b : Byte) (i : Instr) : encode (withImm b i) = opcodeOf i ++ b := by
  cases i <;> rfl

/-- Two commands of one opcode differ in `IMM` alone (R70, R74). -/
theorem exists_withImm_of_opcodeOf {i j : Instr} (h : opcodeOf i = opcodeOf j) : ∃ b, j = withImm b i := by
  have hw : encode j = encode (withImm j.imm i) := by rw [encode_withImm, h]; rfl
  exact ⟨j.imm, Except.ok.inj ((decode_encode j).symm.trans (hw ▸ decode_encode (withImm j.imm i)))⟩

theorem legalIn_withImm (b : Byte) (i : Instr) : legalIn (withImm b i) = legalIn i := by
  cases i <;> rfl

/-- Without an operand the body does not read `IMM` (R71). -/
theorem sessionBody_withImm {b : Byte} {i : Instr} (h : i.hasOperand = false) :
    sessionBody (withImm b i) = sessionBody i := by
  cases i
  case txPush | rxByte | pkPush | upPush => cases h
  all_goals rfl

/-- Without an operand a global command does not read `IMM` (R71). -/
theorem exec_global_withImm {b : Byte} {i : Instr} (h : i.hasOperand = false) (hi : legalIn i = none) (s : State) :
    exec (withImm b i) s = exec i s := by
  cases i
  case txPush | rxByte | pkPush | upPush => cases h
  case txEmitEnd | txClose | txSend | rxEnd | rdByte | rdSkipBreak => cases hi
  case txOpen => rw [withImm, exec_txOpen, exec_txOpen]
  all_goals rfl

/-- The error entries of two words differ in the recorded word alone (R226). -/
theorem errorEntry_errCmd_zero (k : ErrKind) (v w : Word) (s : State) :
    { errorEntry k v s with errCmd := 0x0000 } = { errorEntry k w s with errCmd := 0x0000 } := by
  unfold errorEntry; split <;> rfl

/-- Two words of one session command lead to states that differ in the recorded word alone (R71, R226). -/
theorem runSession_errCmd_zero {c : Ctl} {v w : Word} {s t u : State} {f : State → Attempt}
    (ht : runSession c v s f = .next t) (hu : runSession c w s f = .next u) :
    { t with errCmd := 0x0000 } = { u with errCmd := 0x0000 } := by
  unfold runSession at ht hu
  split_ifs at ht hu
  · cases ht; cases hu; rfl
  · cases hf : f s with
    | ok r => rw [hf] at ht hu; cases ht; cases hu; rfl
    | error e =>
      rw [hf] at ht hu
      cases e with
      | raise k => cases ht; cases hu; exact errorEntry_errCmd_zero ..
      | fault f => cases ht
  · cases ht; cases hu; exact errorEntry_errCmd_zero ..

/-- Settles O15: two words of one opcode are one command with two `IMM` bytes, which its body does not read. -/
theorem immIgnoredWithoutOperand : Obligations.ImmIgnoredWithoutOperand := by
  intro i j s t u hop hopc ht hu
  obtain ⟨b, rfl⟩ := exists_withImm_of_opcodeOf hopc
  cases hi : legalIn i with
  | none =>
    rw [exec_global_withImm hop hi] at hu
    obtain rfl := Host.Outcome.next.inj (ht.symm.trans hu)
    rfl
  | some c =>
    rw [exec_session hi] at ht
    rw [exec_session ((legalIn_withImm _ i).trans hi), sessionBody_withImm hop] at hu
    exact runSession_errCmd_zero ht hu

/-! ## An error in an encode session -/

/-- Settles O41: the step took the error entry outside a decode session (R226). -/
theorem encodeErrorKeepsDocument : Obligations.EncodeErrorKeepsDocument := by
  intro s t hs h ht
  have hne : s.ctl ≠ .err := by rintro hc; simp [Ctl.isEncode, hc] at hs
  have hdec : ¬ (s.ctl = .rxActive ∨ s.ctl = .rxDone) := by rintro (hc | hc) <;> simp [Ctl.isEncode, hc] at hs
  obtain ⟨k, w, ws, rfl⟩ := step_enters_err hne h ht
  rw [errorEntry_keep k w { s with cmdPort := ws } hdec]
  exact ⟨rfl, rfl, rfl, rfl, rfl, rfl, rfl⟩

end Sys2Proof.Machine
end

section
/-! PROOF. Every step keeps the invariants (R42). -/

namespace Sys2Proof.Machine

/-! ## Registers the invariants leave free -/

/-- The packer's registers are bound by their own two lines, and OUT by none. -/
theorem Invariants.withPacker {s : State} (h : Invariants s) (g : Vector Byte 7) {c : Fin 7} {m : BitVec 7} {f st : Bool}
    (o : List Byte) (hstop : st = true → c = 0 ∧ f = false) (hmask : m.toNat < 2 ^ c.val) :
    Invariants { s with pkGrp := g, pkCnt := c, pkMask := m, pkFep := f, pkStop := st, out := o } :=
  { h with pkStopEmpty := hstop, pkMaskBits := hmask }

/-- The unpacker's registers and OUT are free. -/
theorem Invariants.withUnpacker {s : State} (h : Invariants s) (m : Byte) (i : BitVec 3) (o : List Byte) :
    Invariants { s with upMask := m, upIdx := i, out := o } :=
  { h with docWf := h.docWf }

/-- The parser's checksum, held byte and group are free (R37). -/
theorem Invariants.withParser {s : State} (h : Invariants s) (sum : BitVec 7) (hold : Byte) (v : Bool) (m : Byte)
    (i : BitVec 3) : Invariants { s with rxSum := sum, rxHold := hold, holdV := v, rxMask := m, rxIdx := i } :=
  { h with docWf := h.docWf }

/-! ## Appending -/

theorem appended_one_rawLen_toNat {b : Byte} {s : State} (h : s.rawLen.toNat < 26670) :
    (appended [b] s).rawLen.toNat = s.rawLen.toNat + 1 :=
  appended_rawLen_toNat (bs := [b]) (Nat.succ_le_of_lt h)

theorem appended_one_curLen_toNat {b : Byte} {s : State} (h : s.curLen.toNat < 26670) :
    (appended [b] s).curLen.toNat = s.curLen.toNat + 1 := by
  rw [appended_one_eq, BitVec.toNat_add, Nat.mod_eq_of_lt (by simp; omega)]; rfl

/-- A byte can be appended to an open document, or to the message that is being received (R53). -/
theorem Invariants.appended_one {s : State} (h : Invariants s) (b : Byte) (hroom : s.rawLen.toNat < 26670)
    (hctl : s.ctl = .txBuild ∨ (s.ctl = .rxActive ∧ s.rxSub = .body)) : Invariants (appended [b] s) := by
  have hraw : (appended [b] s).rawLen.toNat = s.rawLen.toNat + 1 := appended_one_rawLen_toNat hroom
  have hcur : s.curLen.toNat < 26670 → (appended [b] s).curLen.toNat = s.curLen.toNat + 1 := appended_one_curLen_toNat
  refine { h with
    docWf := wf_appended (Nat.succ_le_of_lt hroom) h.docWf
    docFilled := fun a ha => filled_appended h.docFilled a (hraw ▸ ha)
    rawLenCap := hraw.trans_le hroom
    rdPtrLe := h.rdPtrLe.trans (by omega)
    blkStartLe := fun i hi => (h.blkStartLe i hi).trans (by omega)
    idleEmpty := fun (hc : s.ctl = .idle) => ?idleEmpty
    encodeBlocks := fun he => ?encodeBlocks
    betweenMessages := fun (hc : s.ctl = .rxActive) (hsub : s.rxSub ≠ .body) => ?betweenMessages
    inBody := fun hc hsub => ?inBody }
  case idleEmpty => simp [hc] at hctl
  case encodeBlocks =>
    obtain ⟨hblk, hsum⟩ := h.encodeBlocks he
    refine ⟨hblk, ?_⟩
    rw [hraw, hcur (by omega), ← hsum]; rfl
  case betweenMessages => simp [hc, hsub] at hctl
  case inBody =>
    obtain ⟨hblk, hsum, hzero, hle⟩ := h.inBody hc hsub
    refine ⟨hblk, ?_, hzero, hle⟩
    rw [hraw, hcur (by omega), ← hsum]; rfl

/-! ## `BLKSTART` -/

/-- `blkStartAt` after one entry was written. -/
theorem blkStartAt_of_set {s t : State} {i : Nat} {v : BitVec 15} (hi : i < 127)
    (ht : t.blkStart = s.blkStart.setIfInBounds i v) (j : Nat) :
    blkStartAt t j = if j = i then v.toNat else blkStartAt s j := by
  rw [blkStartAt, ht, blkStartAt_setIfInBounds s i j v hi]

/-- A count of blocks that has room for one more. -/
theorem blkCnt_succ_toNat {s : State} (h : s.blkCnt.toNat < 127) : (s.blkCnt + 1).toNat = s.blkCnt.toNat + 1 := by
  rw [BitVec.toNat_add, Nat.mod_eq_of_lt (by simp; omega)]; rfl

/-! ## The error entry -/

/-- The error entry keeps the invariants: in a decode session it empties the document, elsewhere it keeps it (R226). -/
theorem Invariants.errorEntry {s : State} (h : Invariants s) (k : ErrKind) (w : Word) :
    Invariants (errorEntry k w s) := by
  by_cases hdec : s.ctl = .rxActive ∨ s.ctl = .rxDone
  · have hsend : s.sendIdx = 0 := h.decodeSendIdx ((Ctl.isDecode_iff _).mpr hdec)
    rw [errorEntry_decode k w s hdec]
    exact { h with
      docFilled := fun a ha => absurd ha (Nat.not_lt_zero a)
      rawLenCap := Nat.zero_le _
      sendIdxLe := by rw [hsend]
      rdPtrLe := le_rfl
      blkStartZero := nofun
      blkStartOrder := nofun
      blkStartLe := nofun
      errCodeIff := iff_of_true rfl rfl
      errCmdZero := nofun
      idleEmpty := nofun
      encodeBlocks := nofun
      encodeSizes := nofun
      sendPosition := ⟨nofun, nofun⟩
      decodeSendIdx := nofun
      betweenMessages := nofun
      inBody := nofun
      readPortOpen := nofun }
  · have horder := h.blkStartOrder
    simp only [if_neg (mt (Ctl.isDecode_iff _).mp hdec)] at horder
    rw [errorEntry_keep k w s hdec]
    exact { h with
      blkStartOrder := horder
      errCodeIff := iff_of_true rfl rfl
      errCmdZero := nofun
      idleEmpty := nofun
      encodeBlocks := nofun
      encodeSizes := nofun
      sendPosition := ⟨nofun, nofun⟩
      decodeSendIdx := nofun
      betweenMessages := nofun
      inBody := nofun
      readPortOpen := nofun }

/-! ## The commands, one by one -/

/-- RX_OPEN starts with no block and no byte (R43, R170). -/
theorem Invariants.rxOpen {s : State} (h : Invariants s) : Invariants { clearSession s with ctl := .rxActive } :=
  { h with
    docFilled := fun a ha => absurd ha (Nat.not_lt_zero a)
    rawLenCap := Nat.zero_le _
    sendIdxLe := le_rfl
    rdPtrLe := le_rfl
    blkStartZero := nofun
    blkStartOrder := nofun
    blkStartLe := nofun
    errCodeIff := by simp
    errCmdZero := fun _ => rfl
    idleEmpty := nofun
    encodeBlocks := nofun
    encodeSizes := nofun
    sendPosition := ⟨nofun, nofun⟩
    decodeSendIdx := fun _ => rfl
    betweenMessages := fun _ _ _ => rfl
    inBody := nofun
    readPortOpen := nofun }

/-- RESET leaves the power-on state, but for OUT, the parameters and the port. -/
theorem invariants_resetBlock (s : State) : Invariants (resetBlock s) :=
  { invariants_powerOn s.params with docWf := rfl }

/-- A push keeps the packer's two invariants (R42, R75). -/
theorem Invariants.pkPush {s : State} (h : Invariants s) (b : Byte) : Invariants (pkPush b s) := by
  cases hs : s.pkStop with
  | true => rwa [pkPush_stopped b hs]
  | false =>
    rw [pkPush_frame]
    by_cases hj : s.pkFep = true → b = Config.sentinel
    · rw [pkPush_joins hs hj]
      refine h.withPacker _ _ (fun (hst : (pkAdd b s).pkStop = true) => ?_) (pkAdd_mask b s h.pkMaskBits)
      simp [pkAdd_stop, hs] at hst
    · obtain ⟨hf, hb⟩ := Classical.not_imp.mp hj
      rw [pkPush_terminator hs hf hb]
      exact h.withPacker _ _ (fun _ => ⟨rfl, rfl⟩) Nat.one_pos

/-- A flush empties the packer (R110). -/
theorem Invariants.pkFlush {s : State} (h : Invariants s) : Invariants (pkFlush s) := by
  rw [pkFlush_eq]
  exact h.withPacker s.pkGrp _ (fun _ => ⟨rfl, rfl⟩) Nat.one_pos

/-- In an encode session the next message and the state of the sending go together (R31). -/
theorem Invariants.withSendPosition {s : State} (h : Invariants s) (hs : s.ctl.isEncode = true) {c : Ctl} {i : BitVec 7}
    (hc : c.isEncode = true) (hle : i.toNat ≤ s.blkCnt.toNat)
    (hpos : (c = .txClosed → i.toNat < s.blkCnt.toNat) ∧ (c = .txSent → i = s.blkCnt)) :
    Invariants { s with sendIdx := i, ctl := c } := by
  have hother {d : Ctl} (hd : d.isEncode = false) : c ≠ d ∧ s.ctl ≠ d := by
    constructor <;> rintro rfl <;> simp_all
  have hdec {d : Ctl} (hd : d.isEncode = true) : d.isDecode = false := by cases d <;> simp_all [Ctl.isEncode, Ctl.isDecode]
  have horder := h.blkStartOrder
  rw [hdec hs] at horder
  exact { h with
    sendIdxLe := hle
    blkStartOrder := by rw [hdec hc]; exact horder
    errCodeIff := h.errCodeIff.trans (iff_of_false (hother rfl).2 (hother rfl).1)
    idleEmpty := fun he => absurd he (hother rfl).1
    encodeBlocks := fun _ => h.encodeBlocks hs
    encodeSizes := fun _ => h.encodeSizes hs
    sendPosition := hpos
    decodeSendIdx := fun he => by rw [hdec hc] at he; cases he
    betweenMessages := fun he => absurd he (hother rfl).1
    inBody := fun he => absurd he (hother rfl).1
    readPortOpen := fun he => absurd he (hother rfl).1 }

/-- TX_CLOSE ends the document and starts the sending at block 0 (R140). -/
theorem Invariants.txClose {s : State} (h : Invariants s) (hc : s.ctl = .txBuild) (hroom : s.rawLen.toNat < 26670) :
    Invariants { appended [0xFE] s with sendIdx := 0, ctl := .txClosed } := by
  have happ := h.appended_one 0xFE hroom (.inl hc)
  have henc : (appended [0xFE] s).ctl.isEncode = true := by rw [show (appended [0xFE] s).ctl = .txBuild from hc]; rfl
  obtain ⟨hblk, -⟩ := happ.encodeBlocks henc
  exact happ.withSendPosition henc rfl (Nat.zero_le _) ⟨fun _ => Nat.zero_lt_of_lt hblk, nofun⟩

/-- TX_SEND moves on by one block, after the last to `TX_SENT` (R141). -/
theorem Invariants.txSend {s : State} (h : Invariants s) (raw : List Byte) (hc : s.ctl = .txClosed) :
    Invariants (sent raw s) := by
  have hlt := h.sendPosition.1 hc
  have hidx : (s.sendIdx + 1).toNat = s.sendIdx.toNat + 1 := by
    have := s.blkCnt.isLt
    rw [BitVec.toNat_add, Nat.mod_eq_of_lt (by simp; omega)]; rfl
  have henc : s.ctl.isEncode = true := by rw [hc]; rfl
  have hle : (s.sendIdx + 1).toNat ≤ s.blkCnt.toNat := hidx.trans_le hlt
  by_cases hlast : s.sendIdx + 1 = s.blkCnt
  · rw [sent, if_pos hlast]
    exact (h.withSendPosition (c := .txSent) henc rfl hle ⟨nofun, fun _ => hlast⟩).withUnpacker ..
  · have hmore : (s.sendIdx + 1).toNat < s.blkCnt.toNat :=
      lt_of_le_of_ne hle fun he => hlast (BitVec.eq_of_toNat_eq he)
    rw [sent, if_neg hlast]
    exact (h.withSendPosition henc henc hle ⟨fun _ => hmore, by simp [hc]⟩).withUnpacker ..

/-- The parser moves on in a header (R172, R173). -/
theorem Invariants.rxHeader {s : State} (h : Invariants s) {sub : RxSub} (hc : s.ctl = .rxActive) (hsub : s.rxSub ≠ .body)
    (hnext : sub ≠ .body) : Invariants { s with rxSub := sub } :=
  { h with
    betweenMessages := fun _ _ => h.betweenMessages hc hsub
    inBody := fun _ hbody => absurd hbody hnext
    readPortOpen := by simp [hc] }

/-- A message body opens at the end of the document (R174). -/
theorem Invariants.rxIndex {s : State} (h : Invariants s) (hc : s.ctl = .rxActive) (hsub : s.rxSub = .hdrIdx)
    (hblk : s.blkCnt.toNat ≠ 127) : Invariants (bodyOpened s) := by
  have hctl : (bodyOpened s).ctl = .rxActive := hc
  exact { h with
    encodeBlocks := by simp [hctl, Ctl.isEncode]
    betweenMessages := fun _ hbody => absurd rfl hbody
    inBody := fun _ _ => ⟨lt_of_le_of_ne (Nat.le_of_lt_succ s.blkCnt.isLt) hblk, rfl,
      h.betweenMessages hc (by simp [hsub]), h.blkStartLe⟩
    readPortOpen := by simp [hctl] }

/-- A message ends: its start is the start of one block more (R176). -/
theorem Invariants.rxMessageEnd {s : State} (h : Invariants s) (hc : s.ctl = .rxActive) (hsub : s.rxSub = .body)
    (hblk : s.blkCnt.toNat < 127) : Invariants (messageEnded s) := by
  obtain ⟨-, hsum, hzero, hle⟩ := h.inBody hc hsub
  have hcnt : (messageEnded s).blkCnt.toNat = s.blkCnt.toNat + 1 := blkCnt_succ_toNat hblk
  have hctl : (messageEnded s).ctl = .rxActive := hc
  have hstart : ∀ j, blkStartAt (messageEnded s) j = if j = s.blkCnt.toNat then s.msgStart.toNat else blkStartAt s j :=
    blkStartAt_of_set hblk rfl
  have horder := h.blkStartOrder
  simp only [hc, Ctl.isDecode] at horder
  refine { h with
    sendIdxLe := h.sendIdxLe.trans (by omega)
    blkStartZero := fun _ => ?blkStartZero
    blkStartOrder := fun i hi => ?blkStartOrder
    blkStartLe := fun i hi => ?blkStartLe
    idleEmpty := by simp [hctl]
    encodeBlocks := by simp [hctl, Ctl.isEncode]
    encodeSizes := by simp [hctl, Ctl.isEncode]
    sendPosition := by simp [hctl]
    betweenMessages := fun _ _ h0 => absurd (hcnt.symm.trans (congrArg BitVec.toNat h0)) (Nat.succ_ne_zero _)
    inBody := fun _ => nofun
    readPortOpen := by simp [hctl] }
  case blkStartZero =>
    rw [hstart]
    split_ifs with h0
    · rw [hzero (BitVec.eq_of_toNat_eq h0.symm)]; rfl
    · exact h.blkStartZero (by omega)
  case blkStartOrder =>
    rw [hctl, if_pos (by decide), hstart, hstart, if_neg (by omega)]
    split_ifs with hlast
    · exact hle i (by omega)
    · exact horder i (by omega)
  case blkStartLe =>
    rw [hstart]
    split_ifs with hlast
    · exact hsum ▸ Nat.le_add_right ..
    · exact h.blkStartLe i (by omega)

/-- The read port opens at the start of the document (R178). -/
theorem Invariants.rxEnd {s : State} (h : Invariants s) (hc : s.ctl = .rxActive) (hsub : s.rxSub = .waitF0)
    (hblk : s.blkCnt ≠ 0) : Invariants { s with rdPtr := 0, ctl := .rxDone } := by
  have horder := h.blkStartOrder
  have herr := h.errCodeIff
  simp only [hc] at horder herr
  exact { h with
    rdPtrLe := Nat.zero_le _
    blkStartOrder := horder
    errCodeIff := herr.trans (by simp)
    idleEmpty := nofun
    encodeBlocks := nofun
    encodeSizes := nofun
    sendPosition := ⟨nofun, nofun⟩
    decodeSendIdx := fun _ => h.decodeSendIdx (by simp [hc, Ctl.isDecode])
    betweenMessages := nofun
    inBody := nofun
    readPortOpen := fun _ => ⟨hsub, Nat.one_le_iff_ne_zero.mpr fun h0 => hblk (BitVec.eq_of_toNat_eq h0)⟩ }

/-- The registers of the read port but its pointer are free (R179, R180). -/
theorem Invariants.withReadPort {s : State} (h : Invariants s) (d : Byte) (v : Bool) {p : BitVec 15}
    (hp : p.toNat ≤ s.rawLen.toNat) : Invariants { s with rdData := d, rdValid := v, rdPtr := p } :=
  { h with rdPtrLe := hp }

/-! ## The break -/

/-- The starts of the blocks after a break: the new block begins after the sentinels (R136). -/
theorem blkStartAt_broken {s : State} (hblk : s.blkCnt.toNat ≠ 127)
    (hroom : s.rawLen.toNat + 1 + padNeeded (s.curLen.toNat + 1) + 4 ≤ 26670) (j : Nat) :
    blkStartAt (broken s) j =
      if j = s.blkCnt.toNat then s.rawLen.toNat + (1 + padNeeded (s.curLen.toNat + 1)) else blkStartAt s j := by
  have hv : (s.rawLen + BitVec.ofNat 15 (1 + padNeeded (s.curLen.toNat + 1))).toNat =
      s.rawLen.toNat + (1 + padNeeded (s.curLen.toNat + 1)) := by
    rw [BitVec.toNat_add, BitVec.toNat_ofNat]; omega
  rw [← hv]
  exact blkStartAt_of_set (by have := s.blkCnt.isLt; omega) (by rw [broken_eq]) j

/-- A break closes a block of 210 bytes or more and opens the next one (R136, R139). -/
theorem Invariants.fullBlock {s : State} (h : Invariants s) (hc : s.ctl = .txBuild) (hlim : 210 ≤ s.curLen.toNat)
    (hblk : s.blkCnt.toNat ≠ 127) (hroom : s.rawLen.toNat + 1 + padNeeded (s.curLen.toNat + 1) + 4 ≤ 26670) :
    Invariants (broken s) := by
  have henc : s.ctl.isEncode = true := by rw [hc]; rfl
  obtain ⟨htwo, hsum⟩ := h.encodeBlocks henc
  obtain ⟨hfirst, hsize⟩ := h.encodeSizes henc
  have hraw := broken_rawLen_toNat hroom
  have hstart := blkStartAt_broken hblk hroom
  have hcnt : (broken s).blkCnt.toNat = s.blkCnt.toNat + 1 := by
    rw [broken_eq]; exact blkCnt_succ_toNat (by have := s.blkCnt.isLt; omega)
  have hcur : (broken s).curLen.toNat = 4 := by rw [broken_eq]; rfl
  have hctl : (broken s).ctl = .txBuild := hc
  have horder := h.blkStartOrder
  simp only [hc] at horder
  refine { h with
    docWf := wf_broken hroom h.docWf
    docFilled := fun a ha => filled_broken hroom h.docFilled a (hraw ▸ ha)
    rawLenCap := hraw.trans_le (by simp only [Config.rawCap]; omega)
    sendIdxLe := h.sendIdxLe.trans (by omega)
    rdPtrLe := h.rdPtrLe.trans (by omega)
    blkStartZero := fun _ => ?blkStartZero
    blkStartOrder := fun i hi => ?blkStartOrder
    blkStartLe := fun i hi => ?blkStartLe
    idleEmpty := by simp [hctl]
    encodeBlocks := fun _ => ?encodeBlocks
    encodeSizes := fun _ => ⟨?first, fun i h1 hi => ?sizes⟩
    sendPosition := by simp [hctl]
    betweenMessages := by simp [hctl]
    inBody := by simp [hctl]
    readPortOpen := by simp [hctl] }
  case blkStartZero =>
    rw [hstart, if_neg (by omega)]
    exact h.blkStartZero (by omega)
  case blkStartOrder =>
    rw [hctl, if_neg (by decide), hstart, hstart, if_neg (by omega)]
    split_ifs with hlast
    · have := h.blkStartLe i (by omega)
      omega
    · exact horder i (by omega)
  case blkStartLe =>
    rw [hstart, hraw]
    split_ifs with hlast
    · omega
    · exact (h.blkStartLe i (by omega)).trans (Nat.le_add_right ..)
  case encodeBlocks =>
    rw [hcnt, hcur, hraw, hstart, if_pos (Nat.add_sub_cancel ..)]
    omega
  case first => rw [hstart, if_neg (by omega), hfirst]
  case sizes =>
    rw [hstart, hstart, if_neg (by omega)]
    split_ifs with hlast
    · obtain rfl : i = s.blkCnt.toNat - 1 := by omega
      omega
    · exact hsize i h1 (by omega)

/-- The state TX_OPEN leaves, with the document RAM `d` (R137). -/
def txOpened (d : List Host.Cell) (s : State) : State :=
  { clearSession s with
    ctl := .txBuild, rawLen := 46, blkCnt := 2, curLen := 4, doc := d
    blkStart := (s.blkStart.setIfInBounds 0 0).setIfInBounds 1 42 }

theorem broken_opened_eq (s : State) :
    { broken (opened s) with ctl := .txBuild } = txOpened (broken (opened s)).doc s := by
  rw [broken_eq, padNeeded_opened]
  simp [opened, appended, fcbBytes_length, clearSession, txOpened]

/-- `DOC` after TX_OPEN is in canonical form and filled as far as the header of block 1 (R137). -/
theorem broken_opened_doc {s : State} (h : Memory.wf s.doc = true) : Memory.wf (broken (opened s)).doc = true ∧
    ∀ a, a < 46 → (Memory.read (broken (opened s)).doc a).isSome = true := by
  have hlen : (opened s).rawLen.toNat = 40 := by rw [opened_rawLen]; rfl
  have hpad := padNeeded_opened s
  refine ⟨wf_broken (by omega) (wf_appended (by simp [fcbBytes_length, Config.rawCap]) h), fun a ha => ?_⟩
  rw [read_broken_opened, if_pos ha, List.getElem?_eq_getElem (by simpa using ha)]
  rfl

/-- The starts of the two blocks that TX_OPEN leaves (R137). -/
theorem blkStartAt_txOpened (d : List Host.Cell) (s : State) :
    blkStartAt (txOpened d s) 0 = 0 ∧ blkStartAt (txOpened d s) 1 = 42 := by
  have hset := blkStartAt_of_set (s := { s with blkStart := s.blkStart.setIfInBounds 0 0 }) (t := txOpened d s)
    (i := 1) (v := 42) (by decide) rfl
  rw [hset, hset, if_neg (by decide), if_pos rfl, blkStartAt_of_set (s := s) (i := 0) (v := 0) (by decide) rfl]
  exact ⟨rfl, rfl⟩

/-- TX_OPEN leaves a block 0 of 42 bytes and the header of block 1 (R137). -/
theorem Invariants.txOpen {s : State} (h : Invariants s) : Invariants { broken (opened s) with ctl := .txBuild } := by
  obtain ⟨hwf, hfill⟩ := broken_opened_doc h.docWf
  rw [broken_opened_eq]
  generalize (broken (opened s)).doc = d at hwf hfill
  obtain ⟨hzero, hone⟩ := blkStartAt_txOpened d s
  have hraw : (txOpened d s).rawLen.toNat = 46 := rfl
  have hcnt : (txOpened d s).blkCnt.toNat = 2 := rfl
  have hctl : (txOpened d s).ctl.isDecode = false := rfl
  exact { h with
    docWf := hwf
    docFilled := hfill
    rawLenCap := by rw [hraw]; decide
    sendIdxLe := Nat.zero_le _
    rdPtrLe := Nat.zero_le _
    blkStartZero := fun _ => hzero
    blkStartOrder := fun i hi => by
      obtain rfl : i = 0 := by omega
      rw [hctl, hzero, hone]; decide
    blkStartLe := fun i hi => by
      obtain rfl | rfl : i = 0 ∨ i = 1 := by omega
      all_goals omega
    errCodeIff := iff_of_false nofun nofun
    errCmdZero := fun _ => rfl
    idleEmpty := nofun
    encodeBlocks := fun _ => ⟨le_rfl, congrArg (· + 4) hone⟩
    encodeSizes := fun _ => ⟨hone, by omega⟩
    sendPosition := ⟨nofun, nofun⟩
    decodeSendIdx := nofun
    betweenMessages := nofun
    inBody := nofun
    readPortOpen := nofun }

/-! ## Every step -/

/-- Every effect of a command keeps the invariants. -/
theorem Invariants.effect {i : Instr} {s t : State} (h : Invariants s) (he : Effect s i t) : Invariants t := by
  cases he with
  | nop | shortBlock => exact h
  | reset => exact invariants_resetBlock s
  | txOpen => exact h.txOpen
  | rxOpen => exact h.rxOpen
  | pkPush b => exact h.pkPush b
  | pkFlush => exact h.pkFlush
  | upPush | upFlush => exact h.withUnpacker ..
  | txPush b hc hroom => exact h.appended_one b hroom (.inl hc)
  | fullBlock _ hc hlim hblk hroom => exact h.fullBlock hc hlim hblk hroom
  | txClose _ hc hroom => exact h.txClose hc hroom
  | txSend _ raw hc => exact h.txSend raw hc
  | rxHeader _ _ hc hsub hnext => exact h.rxHeader hc hsub hnext
  | rxIndex _ hc hsub _ hblk => exact h.rxIndex hc hsub hblk
  | rxFirst | rxMask => exact h.withParser ..
  | rxData _ hc hsub hroom => exact (h.appended_one _ hroom (.inr ⟨hc, hsub⟩)).withParser ..
  | rxMessageEnd hc hsub hblk => exact h.rxMessageEnd hc hsub hblk
  | rxEnd _ hc hsub hblk => exact h.rxEnd hc hsub hblk
  | rdByte _ v _ hlt => exact h.withReadPort v true (by rw [BitVec.toNat_add]; exact (Nat.mod_le _ _).trans hlt)
  | rdEnd => exact h.withReadPort 0 false h.rdPtrLe
  | rdSkipBreak _ p _ hle => exact h.withReadPort _ _ hle

/-- Every command keeps the invariants. -/
theorem Invariants.of_exec {i : Instr} {s t : State} (h : Invariants s) (hx : exec i s = .next t) : Invariants t := by
  obtain he | ⟨-, rfl⟩ | ⟨-, k, rfl⟩ := exec_cases hx
  · exact h.effect he
  · exact h
  · exact h.errorEntry k _

/-- Settles O58: a step takes a word and is a command, or is ignored, or takes the error entry. -/
theorem everyStepKeepsInvariants : Obligations.EveryStepKeepsInvariants := by
  intro s t h hstep
  obtain ⟨-, rfl⟩ | ⟨w, ws, -, ⟨i, hx⟩ | rfl | ⟨-, rfl⟩⟩ := step_cases hstep
  · exact h
  · exact (h.withPort ws).of_exec hx
  · exact h.withPort ws
  · exact (h.withPort ws).errorEntry _ w

end Sys2Proof.Machine
end

section
/-! PROOF. Every command completes from a state that meets the invariants (R263), and every message sent is well formed
(R77, R145). -/

namespace Sys2Proof.Machine

/-! ## Reading a block -/

/-- The end of a block lies within the document (R36). -/
theorem Invariants.blkEnd_le {s : State} (h : Invariants s) (i : Nat) :
    ∃ v, blkEnd i s = .ok v ∧ v.toNat ≤ s.rawLen.toNat := by
  unfold blkEnd
  split_ifs with hi
  · have hlt : i + 1 < 127 := by have := s.blkCnt.isLt; omega
    exact ⟨_, readBlkStart_ok s hlt, (blkStart_getElem s _ hlt).trans_le (h.blkStartLe _ hi)⟩
  · exact ⟨_, rfl, le_rfl⟩

/-- Every block of the document can be read: its bytes lie below `RAWLEN` (R36, R52). -/
theorem Invariants.exists_blockBytes {s : State} (h : Invariants s) {i : Nat} (hi : i < s.blkCnt.toNat) :
    ∃ raw, blockBytes i s = .ok raw := by
  have hlt : i < 127 := by have := s.blkCnt.isLt; omega
  have hcap := h.rawLenCap
  have hlo : s.blkStart[i].toNat ≤ s.rawLen.toNat := (blkStart_getElem s i hlt).trans_le (h.blkStartLe i hi)
  obtain ⟨v, hend, hv⟩ := h.blkEnd_le i
  obtain ⟨raw, -, hraw⟩ := memReadList_exists (s := s) (v.toNat - s.blkStart[i].toNat) (lo := s.blkStart[i].toNat)
    (by omega) fun a _ ha => h.docFilled a (by omega)
  exact ⟨raw, by rw [blockBytes, readBlkStart_ok s hlt, ok_bind, hend, ok_bind, hraw]⟩

/-- The byte at the read pointer, where the document has one left, can be read (R52). -/
theorem Invariants.read_rdPtr {s : State} (h : Invariants s) (hlt : s.rdPtr.toNat < s.rawLen.toNat) :
    s.rdPtr.toNat < 26670 ∧ ∃ v, Memory.read s.doc s.rdPtr.toNat = some v :=
  ⟨hlt.trans_le h.rawLenCap, Option.isSome_iff_exists.mp (h.docFilled _ hlt)⟩

/-! ## Every command completes -/

/-- A body that ends without a fault of the model. -/
def Completes (r : Attempt) : Prop := ∀ f, r ≠ .error (.fault f)

theorem finish_of_completes {r : Attempt} (h : Completes r) (w : Word) (s : State) : ∃ t, finish w s r = .next t := by
  match r with
  | .ok t => exact ⟨t, rfl⟩
  | .error (.raise k) => exact ⟨_, rfl⟩
  | .error (.fault f) => exact absurd rfl (h f)

/-- A body that is one check completes. -/
theorem completes_ite {p : Prop} [Decidable p] {t : State} {k : ErrKind} :
    Completes (if p then .ok t else .error (.raise k)) := by
  split_ifs <;> exact nofun

/-- RX_BYTE in a message body has room for its byte and for its block (R42). -/
theorem Invariants.rxBody_completes {s : State} (h : Invariants s) (b : Byte) (hc : s.ctl = .rxActive)
    (hsub : s.rxSub = .body) : Completes (rxBody b s) := by
  intro f hf
  have hcap : s.rawLen.toNat ≤ 26670 := h.rawLenCap
  obtain ⟨hblk, -⟩ := h.inBody hc hsub
  have hblk : s.blkCnt.toNat < 127 := hblk
  have hcases := rxBody_cases b s
  simp only [hf, reduceCtorEq, and_false, false_or, or_false, Except.error.injEq] at hcases
  omega

/-- RX_BYTE completes (R171). -/
theorem Invariants.rxByte_completes {s : State} (h : Invariants s) (b : Byte) (hc : s.ctl = .rxActive) :
    Completes (rxByte b s) := by
  cases hsub : s.rxSub <;> simp only [rxByte, hsub]
  case waitF0 => rw [rxWaitF0_eq]; exact completes_ite
  case hdrMfr | hdrFunc | hdrType => rw [rxHeaderId_eq]; exact completes_ite
  case hdrIdx => rw [rxHeaderIdx_eq]; split_ifs <;> exact nofun
  case body => exact h.rxBody_completes b hc hsub

/-- The body of every session command completes where it is legal. -/
theorem Invariants.sessionBody_completes {i : Instr} {s : State} (h : Invariants s) (hi : legalIn i = some s.ctl) :
    Completes (sessionBody i s) := by
  have hcap : s.rawLen.toNat ≤ 26670 := h.rawLenCap
  cases i <;> simp only [legalIn, reduceCtorEq, Option.some.injEq] at hi <;> simp only [sessionBody]
  case txPush b =>
    obtain ⟨-, e⟩ | ⟨-, e⟩ | ⟨hover, -⟩ := txPush_cases b s
    · rw [e]; exact nofun
    · rw [e]; exact nofun
    · omega
  case txEmitEnd =>
    obtain ⟨-, e⟩ | ⟨-, e⟩ := txEmitEnd_cases s <;> rw [e]
    · exact nofun
    · obtain ⟨e, -⟩ | ⟨-, -, e⟩ := breakBlock_cases s <;> rw [e] <;> exact nofun
  case txClose =>
    obtain ⟨-, e⟩ | ⟨-, e⟩ | ⟨hover, -⟩ := txClose_cases s
    · rw [e]; exact nofun
    · rw [e]; exact nofun
    · omega
  case txSend =>
    obtain ⟨raw, hraw⟩ := h.exists_blockBytes (h.sendPosition.1 hi.symm)
    rw [txSend_ok hraw]; exact nofun
  case rxByte b => exact h.rxByte_completes b hi.symm
  case rxEnd => rw [rxEnd_eq]; split_ifs <;> exact nofun
  case rdByte =>
    rcases Nat.lt_or_ge s.rdPtr.toNat s.rawLen.toNat with hlt | hend
    · obtain ⟨hptr, v, hv⟩ := h.read_rdPtr hlt
      rw [rdByte_ok hlt hptr hv]; exact nofun
    · rw [rdByte_end hend]; exact nofun
  case rdSkipBreak =>
    rcases Nat.lt_or_ge s.rdPtr.toNat s.rawLen.toNat with hlt | hend
    · obtain ⟨hptr, v, hv⟩ := h.read_rdPtr hlt
      rw [rdSkipBreak_ok hlt hptr hv]; exact nofun
    · rw [rdSkipBreak_end hend]; exact nofun

/-- Every command completes (R263). -/
theorem Invariants.exec_completes {s : State} (h : Invariants s) (i : Instr) : ∃ t, exec i s = .next t := by
  cases hi : legalIn i with
  | none => exact exec_global_next hi s
  | some c =>
    by_cases he : s.ctl = .err
    · exact ⟨s, exec_session_err hi he⟩
    by_cases hc : s.ctl = c
    · rw [exec_session hi, runSession_legal (legalIn_ne_err hi) hc]
      exact finish_of_completes (h.sessionBody_completes (hc ▸ hi)) _ s
    · exact ⟨_, exec_session_illegal hi hc he⟩

/-- Settles O60: a step does nothing, executes a command, or ends as a reserved word does. -/
theorem everyCommandCompletes : Obligations.EveryCommandCompletes := by
  intro s h
  cases hp : s.cmdPort with
  | nil => exact ⟨s, step_of_no_word hp⟩
  | cons w ws =>
    cases hd : decode w with
    | ok i => rw [step_of_decode_ok hp hd]; exact (h.withPort ws).exec_completes i
    | error e => rw [step_of_decode_error hp hd, execReserved_eq]; exact ⟨_, rfl⟩

/-! ## Every message sent is well formed -/

/-- The bytes of a message between 0xF0 and 0xF7 (R77). -/
def messageBody (p : BuiltParams) (i : BitVec 7) (raw : List Byte) : List Byte :=
  [p.mfrId, p.funcId, p.typeId, i.setWidth 8] ++ pack7to8 raw ++ [cks (pack7to8 raw)]

theorem sysexMessage_eq (p : BuiltParams) (i : BitVec 7) (raw : List Byte) :
    sysexMessage p i raw = [0xF0] ++ messageBody p i raw ++ [0xF7] := by
  simp [sysexMessage, messageBody, Config.sox, Config.eox]

/-- Everything between 0xF0 and 0xF7 is a data byte (R82, R103, R107). -/
theorem messageBody_lt {p : BuiltParams} {i : BitVec 7} {raw : List Byte} {b : Byte} (hb : b ∈ messageBody p i raw) :
    b.toNat < 0x80 := by
  simp only [messageBody, List.mem_append, List.mem_cons, List.not_mem_nil, or_false] at hb
  obtain ((rfl | rfl | rfl | rfl) | hb) | rfl := hb
  · exact p.mfrId_lt
  · exact p.funcId_lt
  · exact p.typeId_lt
  · rw [BitVec.toNat_setWidth_of_le (by decide)]; exact i.isLt
  · exact packGroups_lt hb
  · rw [cks, BitVec.toNat_ofNat]; omega

/-- Settles O40: block `SENDIDX` exists and can be read, so its message is appended to OUT. -/
theorem sentMessagesAreWellFormed : Obligations.SentMessagesAreWellFormed := by
  intro imm s h hc
  have hlt := h.sendPosition.1 hc
  have hblk := s.blkCnt.isLt
  obtain ⟨raw, hraw⟩ := h.exists_blockBytes hlt
  refine ⟨_, messageBody s.params s.sendIdx raw, exec_txSend_ok imm hc hraw, ?out, rfl, by omega, ?next,
    fun b => messageBody_lt⟩
  case out => rw [sent, sysexMessage_eq, List.append_assoc, List.append_assoc, List.append_assoc]
  case next => rw [sent, BitVec.toNat_add, Nat.mod_eq_of_lt (by simp; omega)]; rfl

end Sys2Proof.Machine
end

section
/-! PROOF. The checksum of a message (R107, R176, R222), and a whole message received (R171 to R176, R182). -/

namespace Sys2Proof.Machine

/-! ## The checksum -/

theorem byteSum_append (p q : List Byte) : byteSum (p ++ q) = byteSum p + byteSum q := by
  simp [byteSum]

theorem cks_toNat (p : List Byte) : (cks p).toNat = byteSum p % 128 := by
  rw [cks, BitVec.toNat_ofNat]; omega

/-- One data byte changed to another changes the sum mod 128 (R107). -/
theorem cks_ne_of_ne (pre post : List Byte) {x y : Byte} (hx : x.toNat < 0x80) (hy : y.toNat < 0x80) (hne : x ≠ y) :
    cks (pre ++ x :: post) ≠ cks (pre ++ y :: post) := by
  intro heq
  have hsum : ∀ z : Byte, byteSum (pre ++ z :: post) = byteSum pre + (z.toNat + byteSum post) := fun z => by
    rw [byteSum_append]; rfl
  have hmod := congrArg BitVec.toNat heq
  rw [cks_toNat, cks_toNat, hsum, hsum] at hmod
  have hxy : x.toNat ≠ y.toNat := mt BitVec.eq_of_toNat_eq hne
  omega

/-- Settles O18: of the commands whose body raises, RX_BYTE alone raises ChecksumError. -/
theorem checksumErrorCause : Obligations.ChecksumErrorCause := by
  refine ⟨fun i s => ?_, fun pre post x y => cks_ne_of_ne pre post⟩
  rw [raises_by_body_iff (k := .checksum) nofun, legal_body_raise_iff]
  simp [rxByte_raise_iff]

/-! ## The header of a message -/

theorem execAll_cons {i : Instr} {is : List Instr} {s t : State} (h : exec i s = .next t) :
    execAll (i :: is) s = execAll is t := by
  rw [execAll, h]

/-- The header of the next message opens its body (R172 to R174). -/
theorem execAll_header {s : State} {n : Byte} (hc : s.ctl = .rxActive) (hsub : s.rxSub = .waitF0)
    (hn : n.toNat = s.blkCnt.toNat) (hblk : s.blkCnt.toNat < 127) :
    execAll ([0xF0, s.params.mfrId, s.params.funcId, s.params.typeId, n].map .rxByte) s = .next (bodyOpened s) := by
  have hsox : exec (.rxByte 0xF0) s = .next { s with rxSub := .hdrMfr } :=
    exec_session_ok rfl hc (by simp [sessionBody, rxByte, hsub, rxWaitF0_eq])
  have hmfr : exec (.rxByte s.params.mfrId) { s with rxSub := .hdrMfr } = .next { s with rxSub := .hdrFunc } :=
    exec_session_ok rfl hc (by simp [sessionBody, rxByte, rxHeaderId_eq])
  have hfunc : exec (.rxByte s.params.funcId) { s with rxSub := .hdrFunc } = .next { s with rxSub := .hdrType } :=
    exec_session_ok rfl hc (by simp [sessionBody, rxByte, rxHeaderId_eq])
  have htype : exec (.rxByte s.params.typeId) { s with rxSub := .hdrType } = .next { s with rxSub := .hdrIdx } :=
    exec_session_ok rfl hc (by simp [sessionBody, rxByte, rxHeaderId_eq])
  have hidx : exec (.rxByte n) { s with rxSub := .hdrIdx } = .next (bodyOpened s) := by
    refine exec_session_ok rfl hc ?_
    rw [sessionBody, rxByte_hdrIdx n rfl, rxHeaderIdx_eq, if_neg (by omega), if_neg (not_not.mpr hn), if_neg hblk.ne]
    rfl
  simp only [List.map_cons, List.map_nil]
  rw [execAll_cons hsox, execAll_cons hmfr, execAll_cons hfunc, execAll_cons htype, execAll_cons hidx, execAll]

/-! ## The payload of a message -/

@[simp] theorem appended_nil (s : State) : appended [] s = s := by
  simp [appended, Memory.writeAll]

theorem Memory.writeAll_append (xs ys : List Byte) (m : List Host.Cell) (a : Nat) :
    Memory.writeAll m a (xs ++ ys) = Memory.writeAll (Memory.writeAll m a xs) (a + xs.length) ys := by
  induction xs generalizing m a with
  | nil => rfl
  | cons x xs ih =>
    rw [List.cons_append, Memory.writeAll, ih, Memory.writeAll, List.length_cons, Nat.add_right_comm, Nat.add_assoc]

/-- Appending in two parts, with room for the first (R53). -/
theorem appended_append {s : State} {xs : List Byte} (ys : List Byte)
    (h : s.rawLen.toNat + xs.length ≤ Config.rawCap) : appended ys (appended xs s) = appended (xs ++ ys) s := by
  have hlen : (s.rawLen + BitVec.ofNat 15 xs.length).toNat = s.rawLen.toNat + xs.length := appended_rawLen_toNat h
  simp only [appended, hlen, Memory.writeAll_append, List.length_append, BitVec.ofNat_add, BitVec.add_assoc]

/-- The streaming unpacker, empty at first, after the bytes `p`. -/
def unpacker (s : State) (p : List Byte) : State :=
  p.foldl (fun t b => upPush b t) { s with upMask := 0, upIdx := 0, out := [] }

theorem unpacker_append (s : State) (p : List Byte) (b : Byte) : unpacker s (p ++ [b]) = upPush b (unpacker s p) := by
  rw [unpacker, List.foldl_append]; rfl

theorem unpacker_out (s : State) (p : List Byte) : (unpacker s p).out = unpack8to7 p := by
  obtain ⟨m, i, hfold⟩ := foldl_upPush (p := p) (s := { s with upMask := 0, upIdx := 0, out := [] }) le_rfl fun _ => rfl
  rw [unpacker, hfold, unpack8to7, List.nil_append]

/-- What one more byte unpacks to, by the unpacker's position. -/
theorem unpack8to7_append_mask {s : State} {p : List Byte} (b : Byte) (h : (unpacker s p).upIdx = 0) :
    unpack8to7 (p ++ [b]) = unpack8to7 p := by
  rw [← unpacker_out s, ← unpacker_out s, unpacker_append, upPush_mask b h]

theorem unpack8to7_append_data {s : State} {p : List Byte} (b : Byte) (h : (unpacker s p).upIdx ≠ 0) :
    unpack8to7 (p ++ [b]) =
      unpack8to7 p ++ [restoreBit7 (unpacker s p).upMask ((unpacker s p).upIdx.toNat - 1) b] := by
  rw [← unpacker_out s, ← unpacker_out s, unpacker_append, upPush_data b h]

/-- The state inside a message body after the payload bytes `p` were accepted, with `c` held (R175): what `p` unpacks to is
appended, and the group is the streaming unpacker's. -/
def receiving (s : State) (p : List Byte) (c : Byte) : State :=
  { appended (unpack8to7 p) (bodyOpened s) with
    rxSum := BitVec.ofNat 7 (byteSum p % 128), rxHold := c, holdV := true
    rxMask := (unpacker s p).upMask, rxIdx := (unpacker s p).upIdx }

theorem length_unpack8to7 (p : List Byte) : (unpack8to7 p).length = unpackedSize p.length := length_unpackGroups le_rfl

theorem unpackedSize_le_succ (n : Nat) : unpackedSize n ≤ unpackedSize (n + 1) := by
  unfold unpackedSize
  split_ifs <;> omega

/-- The running checksum after one more byte (R175). -/
theorem rxSum_append (p : List Byte) (b : Byte) :
    BitVec.ofNat 7 (((BitVec.ofNat 7 (byteSum p % 128)).toNat + b.toNat) % 128) =
      BitVec.ofNat 7 (byteSum (p ++ [b]) % 128) := by
  have hb : byteSum [b] = b.toNat := Nat.add_zero _
  refine congrArg (BitVec.ofNat 7) ?_
  rw [byteSum_append, hb, BitVec.toNat_ofNat]
  omega

/-- The byte held is accepted into the payload, and the next one is held (R175). -/
theorem rxBody_receiving {s : State} {p : List Byte} {b c : Byte} (hc : c.toNat < 0x80)
    (hroom : s.rawLen.toNat + unpackedSize (p.length + 1) ≤ 26670) :
    rxBody c (receiving s p b) = .ok (receiving s (p ++ [b]) c) := by
  by_cases h0 : (unpacker s p).upIdx = 0
  · rw [rxBody_data_mask hc rfl h0, receiving, receiving, unpack8to7_append_mask b h0, unpacker_append, upPush_mask b h0,
      ← rxSum_append]
  · have hsnoc := unpack8to7_append_data b h0
    have hsize : unpackedSize (p.length + 1) = (unpack8to7 p).length + 1 := by
      simpa [length_unpack8to7] using congrArg List.length hsnoc
    have hcap : (bodyOpened s).rawLen.toNat + (unpack8to7 p).length ≤ Config.rawCap := by
      show s.rawLen.toNat + _ ≤ 26670
      omega
    have hraw : (receiving s p b).rawLen.toNat < 26670 := by
      show (appended (unpack8to7 p) (bodyOpened s)).rawLen.toNat < 26670
      rw [appended_rawLen_toNat hcap]
      show s.rawLen.toNat + _ < 26670
      omega
    rw [rxBody_data_append hc rfl h0 hraw, receiving, receiving, hsnoc, ← appended_append _ hcap, unpacker_append,
      upPush_data b h0, ← rxSum_append]
    rfl

/-- The payload of a message and the byte held after it (R175). -/
theorem execAll_payload {s : State} {p : List Byte} {c : Byte} (hctl : s.ctl = .rxActive)
    (hp : ∀ b ∈ p, b.toNat < 0x80) (hc : c.toNat < 0x80) (hroom : s.rawLen.toNat + unpackedSize p.length ≤ 26670) :
    execAll ((p ++ [c]).map .rxByte) (bodyOpened s) = .next (receiving s p c) := by
  induction p using List.reverseRecOn generalizing c with
  | nil =>
    have hfirst : rxBody c (bodyOpened s) = .ok (heldFirst c (bodyOpened s)) := rxBody_data_first hc rfl
    have hbody : (bodyOpened s).ctl = .rxActive := hctl
    rw [List.nil_append, List.map_singleton, execAll_cons (exec_rxByte_body_ok hbody rfl hfirst), execAll, receiving,
      show unpack8to7 [] = [] from rfl, appended_nil]
    rfl
  | append_singleton p b ih =>
    rw [List.length_append, List.length_singleton] at hroom
    have hprev := ih (c := b) (fun d hd => hp d (by simp [hd])) (hp b (by simp))
      ((Nat.add_le_add_left (unpackedSize_le_succ _) _).trans hroom)
    have hnext : exec (.rxByte c) (receiving s p b) = .next (receiving s (p ++ [b]) c) :=
      exec_rxByte_body_ok hctl rfl (rxBody_receiving hc hroom)
    rw [List.map_append, execAll_append hprev, List.map_singleton, execAll_cons hnext, execAll]

/-! ## A whole message -/

/-- A whole message is received and counts as one block (R176). -/
theorem execAll_message {s : State} {n : Byte} {p : List Byte} (hc : s.ctl = .rxActive) (hsub : s.rxSub = .waitF0)
    (hn : n.toNat = s.blkCnt.toNat) (hblk : s.blkCnt.toNat < 127) (hp : ∀ b ∈ p, b.toNat < 0x80)
    (hroom : s.rawLen.toNat + unpackedSize p.length ≤ 26670) :
    execAll (messageCommands s.params n p) s = .next (messageEnded (receiving s p (cks p))) := by
  have hcks : (cks p).toNat < 0x80 := by rw [cks_toNat]; omega
  have hsum : (receiving s p (cks p)).rxSum.toNat = (cks p).toNat := by
    rw [cks_toNat, receiving, BitVec.toNat_ofNat]; omega
  obtain ⟨-, -, hend⟩ := rxByteCompletesMessage (receiving s p (cks p)) hc rfl
  have hsplit : messageCommands s.params n p = [0xF0, s.params.mfrId, s.params.funcId, s.params.typeId, n].map .rxByte ++
      ((p ++ [cks p]).map .rxByte ++ [.rxByte 0xF7]) := by
    simp [messageCommands]
  rw [hsplit, execAll_append (execAll_header hc hsub hn hblk), execAll_append (execAll_payload hc hp hcks hroom),
    execAll_cons (hend rfl hsum hblk), execAll]
  rfl

/-- Settles O52: the state the message leaves, and `DOC` read back after the payload was appended. -/
theorem rxMessageUnpacksPayload : Obligations.RxMessageUnpacksPayload := by
  intro s n p hc hsub hn hblk hp hroom
  have hcap : (bodyOpened s).rawLen.toNat + (unpack8to7 p).length ≤ Config.rawCap := by
    rw [length_unpack8to7]; exact hroom
  refine ⟨_, execAll_message hc hsub hn hblk hp hroom, hc, rfl, blkCnt_succ_toNat hblk, ?rawLen, ?curLen, rfl, rfl, rfl,
    fun a => ?doc⟩
  case rawLen => rw [← length_unpack8to7]; exact appended_rawLen_toNat hcap
  case curLen =>
    show (0#15 + BitVec.ofNat 15 (unpack8to7 p).length).toNat = _
    rw [BitVec.zero_add, BitVec.toNat_ofNat, length_unpack8to7]
    omega
  case doc => rw [← length_unpack8to7]; exact read_appended _ (bodyOpened s) a

end Sys2Proof.Machine
end
